-- ==== Sys2Proof/Word.lean ====
section
/-!
DEFINITION. The word types of the Conway step engine. Every value of the block is an unsigned bit vector of a stated width
(spec/00_scope.md R10); nothing is signed. The views of a 256-bit value are in Machine/Views.lean.
-/

namespace Sys2Proof

/-- A packed universe, `UW` = 256 bits (spec/10_state.md R13, spec/30_encoding.md R41). -/
abbrev Universe := BitVec 256

/-- A row lane, `LW` = 32 bits (R6, R11). -/
abbrev Lane := BitVec 32

/-- A cell field, `FW` = 4 bits (R6, R11). -/
abbrev Nibble := BitVec 4

/-- A byte of the byte view of `U` (spec/20_memory.md R29). -/
abbrev Byte := BitVec 8

/-- A command code, `cmd[1:0]` (spec/30_encoding.md R50). -/
abbrev Opcode := BitVec 2

end Sys2Proof
end

