-- ==== Sys2Proof/Config.lean ====
section
/-!
DEFINITION. The parameters of spec/00_scope.md R6, every one fixed by the spec, and the one thing the spec leaves open as a
parameter, the latency of a command (R7, spec/70_reset_and_hazards.md R123).
-/

namespace Sys2Proof

/-- Rows of the grid (R6). -/
def Config.rows : Nat := 8

/-- Columns of the grid (R6). -/
def Config.cols : Nat := 8

/-- Cells of the grid, `ROWS * COLS` (R6). -/
def Config.cells : Nat := Config.rows * Config.cols

/-- Bits per cell field (R6). -/
def Config.fieldWidth : Nat := 4

/-- Bits per row lane, `COLS * FW` (R6). -/
def Config.laneWidth : Nat := Config.cols * Config.fieldWidth

/-- Bits of the universe register, `ROWS * LW` (R6). -/
def Config.universeWidth : Nat := Config.rows * Config.laneWidth

/-- Neighbours per cell (R6). -/
def Config.neighbours : Nat := 8

/-- Neighbour counts that make a dead cell live: the B of B3/S23 (R6). -/
def Config.birth : List Nat := [3]

/-- Neighbour counts that keep a live cell live: the S of B3/S23 (R6). -/
def Config.survive : List Nat := [2, 3]

/-- `STEP_LATENCY`, the open parameter of R7 and R123 (D17): a positive bound that no rule reads, so nothing here reads it.
DESIGN CHOICE (log entry 7); safe: no value of it can be proved. -/
opaque Config.stepLatency : ℕ+

/-- The unnamed latency of each other command, by its code (D17). Read by nothing; as `Config.stepLatency` (log entry 7). -/
opaque Config.commandLatency (op : Opcode) : ℕ+

end Sys2Proof
end

