-- ==== Sys2Proof/Syntax.lean ====
section
/-!
DEFINITION. The commands of the set CSE-1 (spec/30_encoding.md R50), one constructor per row of spec/opcode_table.json; what
the host puts on the input ports (R49); and the host's pseudo-instructions (R56), which the block never sees.
-/

namespace Sys2Proof

/-- The four commands (R50). Only LOADU has an operand; the others ignore `wdata` (R51), so they carry none. -/
inductive Instr where
  /-- `NOP`, R87. -/
  | nop
  /-- `LOADU imm256`, R88. -/
  | loadu (imm256 : Universe)
  /-- `STEP`, R82. -/
  | step
  /-- `READU`, R89. -/
  | readu
  deriving DecidableEq, Repr

/-- The command ports of one transaction: `cmd` and `wdata` (R49). -/
structure CommandWord where
  cmd : Opcode
  wdata : Universe
  deriving DecidableEq, Repr

/-- One move of the host: the reset event on `rst`, which is not a command (spec/70_reset_and_hazards.md R113), or a command
transaction (R49). -/
inductive HostMove where
  | reset
  | command (c : CommandWord)
  deriving DecidableEq, Repr

/-- The pseudo-instructions of R56. A flat cell sequence is a list of numbers, row-major (R43). -/
inductive Pseudo where
  | loadCells (cells : List Nat)
  | stepN (n : Nat)
  | readCells
  | reset
  deriving DecidableEq, Repr

/-- One line of a command sequence as R55 and R56 write it: a command or a pseudo-instruction. -/
inductive SourceLine where
  | instr (i : Instr)
  | pseudo (p : Pseudo)
  deriving DecidableEq, Repr

end Sys2Proof
end

