-- ==== Sys2Proof/WellFormed.lean ====
section
/-!
DEFINITION. Well-formedness of syntax. Every command is well-formed: all four codes are defined and LOADU takes any 256-bit
value unchecked (spec/30_encoding.md R53, spec/42_host_commands.md R88). The one check of the spec's syntax is on a flat cell
sequence (R43, R48), and so on the pseudo-instruction LOADCELLS (R56). `WF` of a packed value is in Machine/Views.lean.
-/

namespace Sys2Proof

/-- No command is reserved or illegal (R53). -/
def Instr.wellFormed : Instr → Bool
  | .nop => true
  | .loadu _ => true
  | .step => true
  | .readu => true

/-- A valid flat cell sequence: exactly 64 values, each 0 or 1 (R43, R48). -/
def validCells (cells : List Nat) : Bool :=
  cells.length == Config.cells && cells.all fun a => a == 0 || a == 1

/-- LOADCELLS needs a valid cell sequence (R48, R56); the other pseudo-instructions are always well-formed. -/
def Pseudo.wellFormed : Pseudo → Bool
  | .loadCells cells => validCells cells
  | .stepN _ => true
  | .readCells => true
  | .reset => true

/-- A source line is well-formed when its command or pseudo-instruction is. -/
def SourceLine.wellFormed : SourceLine → Bool
  | .instr i => i.wellFormed
  | .pseudo p => p.wellFormed

end Sys2Proof
end

