-- ==== Sys2Proof/Decode.lean ====
section
/-!
DEFINITION. Decoding and encoding of commands (spec/30_encoding.md R50, R51, R54). The decoder reads `cmd[1:0]` and is total
without a refusal, because all four codes are defined (R53); `wdata` reaches LOADU as it stands and is ignored by the others.
The serial form of a command, `op` in bits 1..0 and `wdata` in bits 257..2, is the model's own (log entry 5, DESIGN CHOICE):
the spec gives the two ports and no common numbering of their bits.
-/

namespace Sys2Proof

/-- The opcode map of R50, read from the ports. -/
def decode (c : CommandWord) : Instr :=
  if c.cmd = 0b00#2 then .nop
  else if c.cmd = 0b01#2 then .loadu c.wdata
  else if c.cmd = 0b10#2 then .step
  else .readu

/-- The code of a command (R50). -/
def opcodeOf : Instr → Opcode
  | .nop => 0b00#2
  | .loadu _ => 0b01#2
  | .step => 0b10#2
  | .readu => 0b11#2

/-- The operand a command puts on `wdata`: LOADU's 256 bits as they stand, and zero where the block ignores the port (R51). -/
def operandOf : Instr → Universe
  | .nop => 0#256
  | .loadu imm256 => imm256
  | .step => 0#256
  | .readu => 0#256

/-- The encoder: the ports that present a command (R50, R55). -/
def encode (i : Instr) : CommandWord :=
  { cmd := opcodeOf i, wdata := operandOf i }

/-- The ports of the serial word `w`: its first word is `cmd` (bits 1..0), its second `wdata` (bits 257..2). -/
def portsOfWord (w : Nat) : CommandWord :=
  { cmd := BitVec.ofNat 2 w, wdata := BitVec.ofNat 256 (w / 4) }

/-- The serial word of the ports. -/
def wordOfPorts (c : CommandWord) : Nat :=
  c.cmd.toNat + 4 * c.wdata.toNat

/-- The ports of an instruction given by the low `nbits` bits of `w`, every bit above them 0. -/
def portsOfTableWord (nbits w : Nat) : CommandWord :=
  portsOfWord (w % 2 ^ nbits)

/-- The instruction read from a word numbered as spec/opcode_table.json numbers it. -/
def decodeTableWord (nbits w : Nat) : Option Instr :=
  some (decode (portsOfTableWord nbits w))

end Sys2Proof
end

