-- ==== Sys2Proof/Machine/State.lean ====
section
/-!
DEFINITION. The state of the block and of its ports, as plain data (spec/10_state.md R13 to R27, spec/30_encoding.md R49, R52).
`Block` is the state type R27 gives, word for word. `State` adds what passes the ports: the moves the host has still to make
and the responses it has been given (R94), so that one deterministic step can read its input (log entry 1).
-/

namespace Sys2Proof.Machine

/-- The sticky fault record `CAUSE` (R20). The reserved code 0b11 has no constructor: no rule produces it (U8). -/
inductive Cause where
  | noFault
  | uninitialisedUniverse
  | malformedUniverse
  deriving DecidableEq, Repr

/-- The two faults of the block (spec/60_exceptions.md R96). No step of this machine answers one: fault entry is described by
the spec (R100), so it is a NEXT state with `CAUSE` written, and `raise` takes one of these as its argument. They are also the
fault outcome of `Safety.verdict`, the three-outcome reading of a faulted state that R101 asks for (log entry 3). -/
inductive Fault where
  /-- Raised by STEP and READU when no universe is loaded (R97). Safe: the spec's own fault. -/
  | uninitialisedUniverse
  /-- Raised by STEP when a nibble of `U` exceeds 1 (R98). Safe: the spec's own fault. -/
  | malformedUniverse
  deriving DecidableEq, Repr

/-- What the machine may refuse: nothing. Every command has its meaning and every code is defined (R53). -/
inductive Refusal where
  /-- An instruction with no meaning yet, answered only by an arm of `exec`. No arm does. Safe. -/
  | notModelled (mnemonic : String)
  deriving DecidableEq, Repr

/-- The response to one command (R52): `status`, and `data`, which is `none` where `rdata` carries no value. -/
structure Response where
  status : BitVec 3
  data : Option Universe
  deriving DecidableEq, Repr

/-- The block's state, exactly as R27 gives it. `u = none` is the spec's own state `LOADED = 0` (R19, R26, R27). -/
structure Block where
  u : Option Universe
  cause : Cause
  deriving DecidableEq, Repr

/-- The block with its ports. `pending` are the host's moves not yet taken, oldest first; `responses` the responses given so
far, oldest first (R94). Both are the model's own fields (log entry 1). -/
structure State where
  block : Block
  pending : List HostMove
  responses : List Response
  deriving DecidableEq, Repr

/-- The reset state of the block (R26, R27): nothing loaded, no fault. -/
def Block.reset : Block :=
  { u := none, cause := .noFault }

/-- The machine right after the reset event that begins every run (R94, R113): no move waiting, no response given. -/
def State.reset : State :=
  { block := Block.reset, pending := [], responses := [] }

end Sys2Proof.Machine
end

