-- ==== Sys2Proof/Machine/Flags.lean ====
section
/-!
DEFINITION. The block's bookkeeping bits: the codes of `CAUSE` (spec/10_state.md R20), `LOADED` (R19), and the composite
`STATUS` (R22). The block has no other flag: no primitive and no command writes a condition code (R23).
-/

namespace Sys2Proof.Machine

/-- The 2-bit codes of R20. -/
def Cause.code : Cause → BitVec 2
  | .noFault => 0b00#2
  | .uninitialisedUniverse => 0b01#2
  | .malformedUniverse => 0b10#2

/-- The cause a fault records (spec/60_exceptions.md R97, R98). -/
def Fault.cause : Fault → Cause
  | .uninitialisedUniverse => .uninitialisedUniverse
  | .malformedUniverse => .malformedUniverse

/-- `LOADED`, one bit: a universe has been loaded since reset (R19, R27). -/
def Block.loaded (b : Block) : Bool :=
  b.u.isSome

/-- The block is faulted: `CAUSE != 0` (R20). -/
def Block.faulted (b : Block) : Bool :=
  b.cause != .noFault

/-- `STATUS = {CAUSE, LOADED}` (R22). -/
def Block.status (b : Block) : BitVec 3 :=
  b.cause.code ++ BitVec.ofBool b.loaded

/-- `STATUS[0]`, the `LOADED` field of a status word (R22). -/
def statusLoaded (st : BitVec 3) : Bool :=
  st.getLsbD 0

/-- `STATUS[2:1]`, the `CAUSE` field of a status word (R22). -/
def statusCause (st : BitVec 3) : BitVec 2 :=
  st.extractLsb 2 1

end Sys2Proof.Machine
end

