-- ==== Sys2Proof/Machine/Views.lean ====
section
/-!
DEFINITION. The views of a 256-bit value (spec/00_scope.md R11) and the way back from fields to a value. Ascending index is
ascending significance throughout (D4). Rows, columns, cells and bytes are numbered by `Fin`, whose arithmetic is the arithmetic
modulo 8 that the torus asks for.
-/

namespace Sys2Proof.Machine

/-- Field `k` of the value cut into fields of `w` bits: `v[w*k + w - 1 : w*k]`. -/
def fieldAt (w : Nat) (v : Universe) (k : Nat) : BitVec w :=
  v.extractLsb' (w * k) w

/-- The value whose fields of `w` bits, from the least significant, are `f 0`, `f 1`, and so on. -/
def pack (w : Nat) {n : Nat} (f : Fin n → BitVec w) : Universe :=
  (List.finRange n).foldr (fun k acc => acc ||| (f k).setWidth 256 <<< (w * k.val)) 0#256

/-- `nib(v, k)`, the four bits of flat cell `k` (R11). -/
def nib (v : Universe) (k : Fin 64) : Nibble :=
  fieldAt 4 v k.val

/-- `lane(v, r)`, the 32 bits of row `r` (R11). -/
def lane (v : Universe) (r : Fin 8) : Lane :=
  fieldAt 32 v r.val

/-- `byte(v, b)` (R11, spec/20_memory.md R29). -/
def byte (v : Universe) (b : Fin 32) : Byte :=
  fieldAt 8 v b.val

/-- `field(v, r, c)`, the four bits of cell (r, c): bits `32r + 4c + 3 : 32r + 4c` (R11, spec/10_state.md R14). -/
def field (v : Universe) (r c : Fin 8) : Nibble :=
  v.extractLsb' (32 * r.val + 4 * c.val) 4

/-- `cell(v, r, c)`, the field read as a number 0 to 15 (R11). -/
def cell (v : Universe) (r c : Fin 8) : Nat :=
  (field v r c).toNat

/-- The flat index `8r + c` of cell (r, c) (spec/30_encoding.md R41). -/
def flatIndex (r c : Fin 8) : Fin 64 :=
  ⟨8 * r.val + c.val, by omega⟩

/-- The row of flat cell `k`, `k div 8` (R41). -/
def rowOf (k : Fin 64) : Fin 8 :=
  ⟨k.val / 8, by omega⟩

/-- The column of flat cell `k`, `k mod 8` (R41). -/
def colOf (k : Fin 64) : Fin 8 :=
  ⟨k.val % 8, by omega⟩

/-- `WF(v)`: no nibble has one of its three upper bits set (R11), that is, every nibble is 0 or 1 (R15). -/
def wf (v : Universe) : Bool :=
  v &&& 0xEEEEEEEEEEEEEEEEEEEEEEEEEEEEEEEEEEEEEEEEEEEEEEEEEEEEEEEEEEEEEEEE#256 == 0#256

/-- The number of live cells: fields that hold 1 (R11, spec/40_vector_primitives.md R63 (d)). -/
def population (v : Universe) : Nat :=
  (List.finRange 64).countP fun k => nib v k == 1#4

/-- The value with row 0 at the other end of the 256 bits: the other choice R79 speaks of (spec/41_step.md). -/
def reverseRows (v : Universe) : Universe :=
  pack 4 fun k : Fin 64 => field v (7 - rowOf k) (colOf k)

/-- The value with column 0 at the other end of every lane (R79). -/
def reverseCols (v : Universe) : Universe :=
  pack 4 fun k : Fin 64 => field v (rowOf k) (7 - colOf k)

/-- The value written as eight groups of eight hexadecimal digits, most significant group (row 7) first (R10). -/
def ofGroups (g7 g6 g5 g4 g3 g2 g1 g0 : Lane) : Universe :=
  pack 32 fun r : Fin 8 => [g0, g1, g2, g3, g4, g5, g6, g7].getD r.val 0#32

end Sys2Proof.Machine
end

