-- ==== Sys2Proof/Machine/Operands.lean ====
section
/-!
DEFINITION. Access to `U`. There is one operand form, `imm256` = `wdata` as it stands (spec/30_encoding.md R51, taken in
Decode.lean), and one access, the whole register at address 0 (spec/42_host_commands.md R91, spec/20_memory.md R30, R33). The
byte view of `U` (R29) is computed from `U`, never stored beside it (spec/10_state.md R18).
-/

namespace Sys2Proof.Machine

/-- The one effective address (R91). -/
def accessAddress : Nat := 0

/-- The one access size in bytes (R91). -/
def accessSize : Nat := 32

/-- `MemRead(addr, n)` (R30): `U` for `(0, 32)`, and no meaning for any other pair. `none` also where `U` holds no value. -/
def memRead (b : Block) (addr n : Nat) : Option Universe :=
  if addr = accessAddress ∧ n = accessSize then b.u else none

/-- `MemWrite(addr, n, v)` (R30): `U <- v` for `(0, 32)`, and no meaning for any other pair. -/
def memWrite (b : Block) (addr n : Nat) (v : Universe) : Option Block :=
  if addr = accessAddress ∧ n = accessSize then some { b with u := some v } else none

/-- `U <- v`: all 256 bits at once (spec/00_scope.md R12); `LOADED` rises with the value (R27). -/
def Block.writeU (b : Block) (v : Universe) : Block :=
  (memWrite b accessAddress accessSize v).getD b

/-- The byte at one address of the byte view (R29): none above address 31, and none while `U` holds no value. -/
def byteAt (b : Block) (addr : Nat) : Option Byte :=
  if h : addr < 32 then b.u.map fun v => byte v ⟨addr, h⟩ else none

/-- The byte view as a list of cells (R29): all 32 addresses, rising, and empty while `U` holds no value (log entry 9). -/
def byteView (b : Block) : List Host.Cell :=
  match b.u with
  | none => []
  | some v => (List.finRange 32).map fun a => (a.val, byte v a)

/-- The canonical form of the byte view: nothing, or exactly the addresses 0 to 31, each once and rising (R29). -/
def Memory.wf (cells : List Host.Cell) : Bool :=
  cells.isEmpty || cells.map Prod.fst == List.range 32

/-- The 256-bit little-endian value of 32 bytes, address 0 first (spec/20_memory.md R31, R32). -/
def ofBytes (bytes : List Byte) : Universe :=
  pack 8 fun a : Fin 32 => bytes.getD a.val 0#8

end Sys2Proof.Machine
end

