-- ==== Sys2Proof/Machine/Ops.lean ====
section
/-!
DEFINITION. The shared operations of the commands: responding (spec/00_scope.md R12, spec/30_encoding.md R52), fault entry
(spec/60_exceptions.md R100), the reset event that is the only way out of a fault (R102, spec/70_reset_and_hazards.md R113), and
the passage of moves and responses through the ports (R49).
-/

namespace Sys2Proof.Machine

/-- `respond(status, data)` with `status` = STATUS as it stands after the command (R12, R52). -/
def respond (b : Block) (data : Option Universe) : Block × Response :=
  (b, { status := b.status, data := data })

/-- `raise F` (R100): writes `CAUSE` and nothing else, and responds with the new STATUS and no data. -/
def raise (f : Fault) (b : Block) : Block × Response :=
  respond { b with cause := f.cause } none

/-- The guard every command but NOP begins with: a faulted block does nothing and responds without data (R101). -/
def unlessFaulted (b : Block) (body : Block × Response) : Block × Response :=
  if b.faulted then respond b none else body

/-- A command's transition taken by the machine: the block after it, and its response given to the host (R49, R94). -/
def State.commit (s : State) (r : Block × Response) : State :=
  { s with block := r.1, responses := s.responses ++ [r.2] }

/-- The reset event (R113): every item of the block at its reset value, no response. The host's record of responses and its
moves to come are not the block's state and stay (log entry 6). -/
def State.resetEvent (s : State) : State :=
  { s with block := Block.reset }

/-- What the input ports show a step: nothing, the reset event, or a command; each with the state in which the move is taken. -/
inductive Presented where
  | idle (s : State)
  | reset (s : State)
  | command (c : CommandWord) (s : State)
  deriving DecidableEq, Repr

/-- Take the host's next move (R37: in the order the host issues them). -/
def State.takeMove (s : State) : Presented :=
  match s.pending with
  | [] => .idle s
  | .reset :: rest => .reset { s with pending := rest }
  | .command c :: rest => .command c { s with pending := rest }

/-- The host presents moves after those it has already in hand. -/
def State.present (s : State) (moves : List HostMove) : State :=
  { s with pending := s.pending ++ moves }

/-- The host presents one move before those it has already in hand, so that the next step takes it. -/
def State.presentNext (s : State) (m : HostMove) : State :=
  { s with pending := m :: s.pending }

end Sys2Proof.Machine
end

