-- ==== Sys2Proof/Machine/Primitives.lean ====
section
/-!
DEFINITION. The seven vector primitives (spec/40_vector_primitives.md R57 to R70): total, pure functions on 256-bit values, used
only inside STEP. The rotations are written at bit level, as the spec writes them; that they move fields as R59 to R62 say at
cell level is proved in Laws/Primitives.lean.
-/

namespace Sys2Proof.Machine

/-- `ROTROW_UP(v) = { v[31:0], v[255:32] }` (R59). -/
def rotRowUp (v : Universe) : Universe :=
  v.extractLsb 31 0 ++ v.extractLsb 255 32

/-- `ROTROW_DN(v) = { v[223:0], v[255:224] }` (R60). -/
def rotRowDn (v : Universe) : Universe :=
  v.extractLsb 223 0 ++ v.extractLsb 255 224

/-- One lane of `ROTCOL_L`: `{ lane[3:0], lane[31:4] }` (R61). -/
def rotLaneL (l : Lane) : Lane :=
  l.extractLsb 3 0 ++ l.extractLsb 31 4

/-- One lane of `ROTCOL_R`: `{ lane[27:0], lane[31:28] }` (R62). -/
def rotLaneR (l : Lane) : Lane :=
  l.extractLsb 27 0 ++ l.extractLsb 31 28

/-- `ROTCOL_L(v)`: every lane on its own; nothing crosses a lane boundary (R61). -/
def rotColL (v : Universe) : Universe :=
  pack 32 fun r : Fin 8 => rotLaneL (lane v r)

/-- `ROTCOL_R(v)`: every lane on its own (R62). -/
def rotColR (v : Universe) : Universe :=
  pack 32 fun r : Fin 8 => rotLaneR (lane v r)

/-- `ADD4(a, b)`: each of the 64 fields on its own, modulo 16, no carry between fields (R64). -/
def add4 (a b : Universe) : Universe :=
  pack 4 fun k : Fin 64 => nib a k + nib b k

/-- `OR256(a, b)` (R68). -/
def or256 (a b : Universe) : Universe :=
  a ||| b

/-- `EQ3(v)`: 1 in the fields that hold exactly 3, 0 in all others (R69). -/
def eq3 (v : Universe) : Universe :=
  pack 4 fun k : Fin 64 => if nib v k = 3#4 then 1#4 else 0#4

/-- The sum taken in `n` independent lanes of `w` bits, the adders R66 compares `ADD4` with. No rule of the block uses it. -/
def addLanes (w n : Nat) (a b : Universe) : Universe :=
  pack w fun k : Fin n => fieldAt w a k.val + fieldAt w b k.val

end Sys2Proof.Machine
end

