-- ==== Sys2Proof/Machine/StepFn.lean ====
section
/-!
DEFINITION. The step function of the packed universe (spec/41_step.md R73 to R78), in the source's five steps, and its
straight-line schedule of 17 primitive applications (spec/70_reset_and_hazards.md R124).
-/

namespace Sys2Proof.Machine

/-- The eight views of R73, in the order of R74, built from four given rotations; every one is taken from the same `p` (R119).
The rotations are arguments so that R79, the independence from their naming, can be stated. -/
def viewsWith (up dn left right : Universe → Universe) (p : Universe) : List Universe :=
  [up p, dn p, left p, right p, left (up p), right (up p), left (dn p), right (dn p)]

/-- `V_S, V_N, V_E, V_W, V_SE, V_SW, V_NE, V_NW` (R73). -/
def views (p : Universe) : List Universe :=
  viewsWith rotRowUp rotRowDn rotColL rotColR p

/-- The left-associated `ADD4` sum of a list of values, with no separate zero start (R74, D7). -/
def gather : List Universe → Universe
  | [] => 0#256
  | v :: vs => vs.foldl add4 v

/-- A way to group a sum: R74 says that any grouping of the summands gives the same value. -/
inductive SumTree where
  | leaf (v : Universe)
  | node (l r : SumTree)
  deriving DecidableEq, Repr

/-- The summands of a grouping, from left to right. -/
def sumTreeLeaves : SumTree → List Universe
  | .leaf v => [v]
  | .node l r => sumTreeLeaves l ++ sumTreeLeaves r

/-- The `ADD4` sum taken in the order a grouping says. -/
def sumTreeValue : SumTree → Universe
  | .leaf v => v
  | .node l r => add4 (sumTreeValue l) (sumTreeValue r)

/-- `COUNT(P)` over four given rotations (R74, R79). -/
def countWith (up dn left right : Universe → Universe) (p : Universe) : Universe :=
  gather (viewsWith up dn left right p)

/-- `COUNT(P)` (R74). -/
def count (p : Universe) : Universe :=
  gather (views p)

/-- `M = OR256(COUNT(P), P)` (R75): the or is with the value from before the step. -/
def merged (p : Universe) : Universe :=
  or256 (count p) p

/-- `STEP_FN(P) = EQ3(OR256(COUNT(P), P))` (R78), total on all 256-bit values. -/
def stepFn (p : Universe) : Universe :=
  eq3 (merged p)

/-- `STEP_FN` over four given rotations (R79). -/
def stepFnWith (up dn left right : Universe → Universe) (p : Universe) : Universe :=
  eq3 (or256 (countWith up dn left right p) p)

/-- One application of a primitive, its operands named by their place in the list of values computed so far; value 0 is `P`. -/
inductive MicroOp where
  | rotRowUp (a : Nat)
  | rotRowDn (a : Nat)
  | rotColL (a : Nat)
  | rotColR (a : Nat)
  | add4 (a b : Nat)
  | or256 (a b : Nat)
  | eq3 (a : Nat)
  deriving DecidableEq, Repr

/-- The result of one primitive application on the values computed so far. -/
def microResult (values : List Universe) : MicroOp → Universe
  | .rotRowUp a => rotRowUp (values.getD a 0#256)
  | .rotRowDn a => rotRowDn (values.getD a 0#256)
  | .rotColL a => rotColL (values.getD a 0#256)
  | .rotColR a => rotColR (values.getD a 0#256)
  | .add4 a b => add4 (values.getD a 0#256) (values.getD b 0#256)
  | .or256 a b => or256 (values.getD a 0#256) (values.getD b 0#256)
  | .eq3 a => eq3 (values.getD a 0#256)

/-- All values of a schedule in order, each new value after those before it. -/
def runSchedule : List MicroOp → List Universe → List Universe
  | [], values => values
  | op :: ops, values => runSchedule ops (values ++ [microResult values op])

/-- STEP_FN as the 17 primitive applications of R124: values 1 and 2 are the rows up and down, 3 and 4 the columns of `P`, 5 and
6 those of value 1, 7 and 8 those of value 2, 9 to 15 the seven sums of R74, 16 the or and 17 the compare. -/
def stepSchedule : List MicroOp :=
  [.rotRowUp 0, .rotRowDn 0, .rotColL 0, .rotColR 0, .rotColL 1, .rotColR 1, .rotColL 2, .rotColR 2,
    .add4 1 2, .add4 9 3, .add4 10 4, .add4 11 5, .add4 12 6, .add4 13 7, .add4 14 8, .or256 15 0, .eq3 16]

/-- The last value a schedule computes from `p`. -/
def scheduleResult (ops : List MicroOp) (p : Universe) : Universe :=
  (runSchedule ops [p]).getLast?.getD 0#256

end Sys2Proof.Machine
end

