-- ==== Sys2Proof/Machine/Engine.lean ====
section
/-!
DEFINITION. The STEP command (spec/41_step.md R82): the contract checks in their order (spec/60_exceptions.md R99), then the
in-place update (R81).
-/

namespace Sys2Proof.Machine

/-- `STEP` (R82). `STEP_FN` is not evaluated on a malformed universe (R84). -/
def transStep (b : Block) : Block × Response :=
  unlessFaulted b <|
    match b.u with
    | none => raise .uninitialisedUniverse b
    | some p => if wf p then respond (b.writeU (stepFn p)) none else raise .malformedUniverse b

/-- The meaning of STEP (R82). -/
def execStep (s : State) : Host.Outcome State Fault Refusal :=
  .next (s.commit (transStep s.block))

end Sys2Proof.Machine
end

