-- ==== Sys2Proof/Machine/HostCommands.lean ====
section
/-!
DEFINITION. The host commands NOP, LOADU and READU (spec/42_host_commands.md R87 to R89), each as a transition of the block and
then as the meaning the dispatcher calls.
-/

namespace Sys2Proof.Machine

/-- `NOP` (R87): responds, in every state, faulted or not. -/
def transNop (b : Block) : Block × Response :=
  respond b none

/-- `LOADU imm256` (R88): stores any value unchecked, unless the block is faulted. -/
def transLoadu (imm256 : Universe) (b : Block) : Block × Response :=
  unlessFaulted b (respond (b.writeU imm256) none)

/-- `READU` (R89): `LOADED` is tested, `WF(U)` is not; a loaded block gives `U` as it stands. -/
def transReadu (b : Block) : Block × Response :=
  unlessFaulted b <|
    match memRead b accessAddress accessSize with
    | none => raise .uninitialisedUniverse b
    | some v => respond b (some v)

/-- The meaning of NOP (R87). -/
def execNop (s : State) : Host.Outcome State Fault Refusal :=
  .next (s.commit (transNop s.block))

/-- The meaning of LOADU (R88). -/
def execLoadu (imm256 : Universe) (s : State) : Host.Outcome State Fault Refusal :=
  .next (s.commit (transLoadu imm256 s.block))

/-- The meaning of READU (R89). -/
def execReadu (s : State) : Host.Outcome State Fault Refusal :=
  .next (s.commit (transReadu s.block))

end Sys2Proof.Machine
end

