-- ==== Sys2Proof/Machine/Dispatch.lean ====
section
/-! DEFINITION. The dispatcher: one arm per command of spec/opcode_table.json. -/

namespace Sys2Proof.Machine

def exec (i : Instr) (s : State) : Host.Outcome State Fault Refusal :=
  match i with
  | .nop => Sys2Proof.Machine.execNop s
  | .loadu imm256 => Sys2Proof.Machine.execLoadu imm256 s
  | .step => Sys2Proof.Machine.execStep s
  | .readu => Sys2Proof.Machine.execReadu s

end Sys2Proof.Machine
end

