-- ==== Sys2Proof/Machine/Step.lean ====
section
/-!
DEFINITION. One step of the machine: it takes the host's next move (spec/42_host_commands.md R93, spec/70_reset_and_hazards.md
R113) and performs it as one atomic transition (spec/00_scope.md R8). With no move in hand nothing happens (log entry 4).
-/

namespace Sys2Proof.Machine

/-- One step: an idle port changes nothing, the reset event resets the block, a command is decoded and executed. -/
def step (s : State) : Host.Outcome State Fault Refusal :=
  match s.takeMove with
  | .idle s' => .next s'
  | .reset s' => .next s'.resetEvent
  | .command c s' => exec (decode c) s'

/-- The state in which the host presents, as its very next move, the command a table word stands for (log entry 5). -/
def State.withFetchWord (s : State) (nbits w : Nat) : State :=
  s.presentNext (.command (portsOfTableWord nbits w))

end Sys2Proof.Machine
end

