-- ==== Sys2Proof/Machine/Codec.lean ====
section
/-!
DEFINITION. The codec between a flat cell sequence and a packed universe (spec/30_encoding.md R43 to R48). It is the host's, not
the block's (spec/00_scope.md R2); its one error, InvalidInput, is no fault of the block (spec/60_exceptions.md R103).
-/

namespace Sys2Proof.Machine

/-- Errors of the host side. `invalidInput` is R48's, raised by `encode` before any command is issued. -/
inductive HostError where
  | invalidInput
  deriving DecidableEq, Repr

/-- The packed value with `nib(v, k) = zext_4(cells[k])` (R44), for any list of numbers; only `encodeCells` checks them. -/
def packCells (cells : List Nat) : Universe :=
  pack 4 fun k : Fin 64 => BitVec.ofNat 4 (cells.getD k.val 0)

/-- `encode(cells)` (R44), refusing a sequence that is not exactly 64 values each 0 or 1 (R48). -/
def encodeCells (cells : List Nat) : Except HostError Universe :=
  if validCells cells then .ok (packCells cells) else .error .invalidInput

/-- `decode(v)` (R46): the nibbles as numbers 0 to 15, flat index rising. Total; it hides nothing of a malformed value. -/
def decodeCells (v : Universe) : List Nat :=
  (List.finRange 64).map fun k => (nib v k).toNat

/-- One row of the demonstration rendering of R43: the row's eight values separated by spaces. -/
def renderRow (cells : List Nat) (r : Nat) : List Char :=
  (((cells.drop (8 * r)).take 8).map fun a => (toString a).toList).intersperse [' '] |>.flatten

/-- The demonstration rendering of R43: 8 rows separated by newlines. Never seen by the block. -/
def renderCells (cells : List Nat) : List Char :=
  ((List.range 8).map (renderRow cells)).intersperse ['\n'] |>.flatten

end Sys2Proof.Machine
end

