-- ==== Sys2Proof/Machine/HostSide.lean ====
section
/-!
DEFINITION. The host's pseudo-instructions (spec/30_encoding.md R56): their expansion into moves, and what the host makes of a
response. The block never sees them.
-/

namespace Sys2Proof.Machine

/-- The move that presents a command. -/
def commandMove (i : Instr) : HostMove :=
  .command (encode i)

/-- The expansion of a pseudo-instruction (R56). LOADCELLS issues nothing when `encode` fails (R48). -/
def expandPseudo : Pseudo → Except HostError (List HostMove)
  | .loadCells cells => (encodeCells cells).map fun v => [commandMove (.loadu v)]
  | .stepN n => .ok (List.replicate n (commandMove .step))
  | .readCells => .ok [commandMove .readu]
  | .reset => .ok [.reset]

/-- The moves of one source line: a command is itself (R55). -/
def expandLine : SourceLine → Except HostError (List HostMove)
  | .instr i => .ok [commandMove i]
  | .pseudo p => expandPseudo p

/-- The moves of a command sequence, all or nothing: when the host refuses one line, no line issues a move, the earlier ones
neither, and the answer is the first refusal. R56, R48 and R103 speak of the refused line alone; what becomes of the others is the
model's choice (DESIGN CHOICE, log entry 15). -/
def expandLines : List SourceLine → Except HostError (List HostMove)
  | [] => .ok []
  | l :: ls =>
    match expandLine l, expandLines ls with
    | .ok ms, .ok rest => .ok (ms ++ rest)
    | .error e, _ => .error e
    | .ok _, .error e => .error e

/-- READCELLS' second half: the host applies `decode` to the data of a response; a response without data shows no cells
(R52, R56, spec/60_exceptions.md R105). -/
def observedCells (r : Response) : Option (List Nat) :=
  r.data.map decodeCells

end Sys2Proof.Machine
end

