-- ==== Sys2Proof/Machine/Assembler.lean ====
section
/-!
DEFINITION. The text form of a command sequence (spec/30_encoding.md R55, R56): one command or pseudo-instruction per line,
`LOADU` with 64 hexadecimal digits that may be grouped with '_', and a comment after `--`. It is the host's: the block sees the
encoding only. What R55 and R56 leave open is the model's choice: white space, letter case and numerals (log entry 10), what a text
with an ill-formed line means (log entry 15), and the errors of text themselves (log entry 16).
-/

namespace Sys2Proof.Machine

/-- Why a line is no line of R55 or R56. The spec names no error for text: these two are the model's (DESIGN CHOICE, log entry 16),
beside R103's list and none of it. They are errors of the host's assembler, raised by `parseLine` before any command exists. -/
inductive AsmError where
  /-- The first word is no command and no pseudo-instruction. -/
  | unknownMnemonic
  /-- The operands are not those the command takes. -/
  | badOperand
  deriving DecidableEq, Repr

/-- The sixteen digits in order. -/
def hexDigits : List Char :=
  ['0', '1', '2', '3', '4', '5', '6', '7', '8', '9', 'A', 'B', 'C', 'D', 'E', 'F']

/-- The lower-case forms of the sixteen digits. -/
def hexDigitsLower : List Char :=
  ['0', '1', '2', '3', '4', '5', '6', '7', '8', '9', 'a', 'b', 'c', 'd', 'e', 'f']

/-- The value of a hexadecimal digit of either case. -/
def hexValue (c : Char) : Option Nat :=
  match hexDigits.idxOf? c with
  | some d => some d
  | none => hexDigitsLower.idxOf? c

/-- The value of digits written most significant first, in base `b`. -/
def digitsValue (b : Nat) (digits : List Nat) : Nat :=
  digits.foldl (fun acc d => b * acc + d) 0

/-- `<hex256>`: 64 hexadecimal digits, '_' between them ignored, most significant first (R55). -/
def parseHex256 (word : List Char) : Option Universe :=
  let digits := word.filter fun c => c != '_'
  if digits.length = 64 then
    (digits.mapM hexValue).map fun ds => BitVec.ofNat 256 (digitsValue 16 ds)
  else none

/-- A number in decimal digits, leading zeros allowed. R56 gives `n` and `c0` to `c63` no numeral form: decimal digits only, and any
other word refused, is the model's choice (DESIGN CHOICE, log entry 10). -/
def parseNat (word : List Char) : Option Nat :=
  if word.isEmpty then none
  else (word.mapM fun c => (hexDigits.take 10).idxOf? c).map (digitsValue 10)

/-- A line up to its comment (R55). -/
def stripComment : List Char → List Char
  | [] => []
  | '-' :: '-' :: _ => []
  | c :: cs => c :: stripComment cs

/-- The words of a line, cut at spaces and tabs; `word` is the one being read. -/
def splitWords (word : List Char) : List Char → List (List Char)
  | [] => if word.isEmpty then [] else [word]
  | c :: cs =>
    if c = ' ' ∨ c = '\t' then
      if word.isEmpty then splitWords [] cs else word :: splitWords [] cs
    else splitWords (word ++ [c]) cs

/-- A command or pseudo-instruction without an operand. -/
def plainLine (l : SourceLine) (operands : List (List Char)) : Except AsmError (Option SourceLine) :=
  if operands.isEmpty then .ok (some l) else .error .badOperand

/-- One line of text (R55, R56). An empty line, or one that holds only a comment, is no command (log entry 10). A line that is none
of the spec's is refused with an `AsmError`, a word such as `-1` among the cells of LOADCELLS too (log entry 16). -/
def parseLine (line : List Char) : Except AsmError (Option SourceLine) :=
  match splitWords [] (stripComment line) with
  | [] => .ok none
  | m :: operands =>
    if m = ['N', 'O', 'P'] then plainLine (.instr .nop) operands
    else if m = ['S', 'T', 'E', 'P'] then plainLine (.instr .step) operands
    else if m = ['R', 'E', 'A', 'D', 'U'] then plainLine (.instr .readu) operands
    else if m = ['R', 'E', 'A', 'D', 'C', 'E', 'L', 'L', 'S'] then plainLine (.pseudo .readCells) operands
    else if m = ['R', 'E', 'S', 'E', 'T'] then plainLine (.pseudo .reset) operands
    else if m = ['L', 'O', 'A', 'D', 'U'] then
      match operands with
      | [w] =>
        match parseHex256 w with
        | some v => .ok (some (.instr (.loadu v)))
        | none => .error .badOperand
      | _ => .error .badOperand
    else if m = ['S', 'T', 'E', 'P', 'N'] then
      match operands with
      | [w] =>
        match parseNat w with
        | some n => .ok (some (.pseudo (.stepN n)))
        | none => .error .badOperand
      | _ => .error .badOperand
    else if m = ['L', 'O', 'A', 'D', 'C', 'E', 'L', 'L', 'S'] then
      match operands.mapM parseNat with
      | some cells => .ok (some (.pseudo (.loadCells cells)))
      | none => .error .badOperand
    else .error .unknownMnemonic

/-- The lines of a text; `line` is the one being read. -/
def splitLines (line : List Char) : List Char → List (List Char)
  | [] => [line]
  | c :: cs => if c = '\n' then line :: splitLines [] cs else splitLines (line ++ [c]) cs

/-- A list of lines in order, all or nothing: one ill-formed line refuses the whole text with the first error, and no line is
returned, the earlier ones neither. The spec is silent on it (DESIGN CHOICE, log entry 15). -/
def parseLines : List (List Char) → Except AsmError (List SourceLine)
  | [] => .ok []
  | l :: ls =>
    match parseLine l, parseLines ls with
    | .ok (some x), .ok xs => .ok (x :: xs)
    | .ok none, .ok xs => .ok xs
    | .error e, _ => .error e
    | .ok _, .error e => .error e

/-- A command sequence written one command per line (R55). -/
def parseText (text : List Char) : Except AsmError (List SourceLine) :=
  parseLines (splitLines [] text)

/-- The hexadecimal digit of a nibble. -/
def hexChar (d : Nibble) : Char :=
  hexDigits.getD d.toNat '0'

/-- One group of R10: the eight digits of a lane, column 7 first. -/
def printGroup (v : Universe) (r : Fin 8) : List Char :=
  (List.finRange 8).reverse.map fun c => hexChar (field v r c)

/-- A 256-bit value as eight groups joined by '_', row 7 first (spec/00_scope.md R10). -/
def printHex256 (v : Universe) : List Char :=
  ((List.finRange 8).reverse.map (printGroup v)).intersperse ['_'] |>.flatten

/-- A command as R55 writes it. -/
def printInstr : Instr → List Char
  | .nop => ['N', 'O', 'P']
  | .loadu imm256 => ['L', 'O', 'A', 'D', 'U', ' '] ++ printHex256 imm256
  | .step => ['S', 'T', 'E', 'P']
  | .readu => ['R', 'E', 'A', 'D', 'U']

end Sys2Proof.Machine
end

