-- ==== Sys2Proof/Machine/Blocks.lean ====
section
/-!
DEFINITION. Several instances of the block (spec/60_exceptions.md R110): a list of machines that share no state. Whoever drives
the system chooses which one moves next; the choice is an argument here (log entry 11).
-/

namespace Sys2Proof.Machine

/-- One step of the machine at place `i`; the others stand still. A place with no machine changes nothing. -/
def stepAt (i : Nat) (sys : List State) : List State :=
  match sys[i]? with
  | none => sys
  | some s =>
    match step s with
    | .next t => sys.set i t
    | .fault _ => sys
    | .refused _ => sys

/-- A schedule of steps, by the places in order. -/
def runSystem : List Nat → List State → List State
  | [], sys => sys
  | i :: is, sys => runSystem is (stepAt i sys)

end Sys2Proof.Machine
end

