-- ==== Sys2Proof/Machine/Life.lean ====
section
/-!
DEFINITION. The reference semantics of a generation, cell by cell (spec/41_step.md R71, R72): the portable counterpart the packed
algorithm of Machine/StepFn.lean is held against (R80). It is written on flat cell sequences and uses no packed value.
-/

namespace Sys2Proof.Machine

/-- `a(r, c) = cells[8r + c]` (R71). -/
def cellAt (cells : List Nat) (r c : Fin 8) : Nat :=
  cells.getD (8 * r.val + c.val) 0

/-- The eight offsets of the Moore neighbourhood: {-1,0,1} x {-1,0,1} less (0,0), modulo 8 (R71). -/
def mooreOffsets : List (Fin 8 × Fin 8) :=
  (([-1, 0, 1] : List (Fin 8)).product [-1, 0, 1]).filter fun d => d != (0, 0)

/-- The live-neighbour count `n(r, c)`, rows and columns taken modulo 8 (R71). -/
def liveNeighbours (cells : List Nat) (r c : Fin 8) : Nat :=
  (mooreOffsets.map fun d => cellAt cells (r + d.1) (c + d.2)).sum

/-- The rule B3/S23 for one cell of state `a` with `n` live neighbours (R72). -/
def lifeRule (a n : Nat) : Nat :=
  if a = 0 ∧ n = 3 then 1
  else if a = 1 ∧ (n = 2 ∨ n = 3) then 1
  else 0

/-- `LIFE(cells)`: every cell from the same `cells` (R72). -/
def life (cells : List Nat) : List Nat :=
  (List.finRange 64).map fun k =>
    lifeRule (cellAt cells (rowOf k) (colOf k)) (liveNeighbours cells (rowOf k) (colOf k))

/-- `LIFE` applied `n` times (spec/42_host_commands.md R95). -/
def lifeIterate : Nat → List Nat → List Nat
  | 0, cells => cells
  | n + 1, cells => lifeIterate n (life cells)

end Sys2Proof.Machine
end

