-- ==== Sys2Proof/Machine/Transaction.lean ====
section
/-!
DEFINITION. The transaction level the spec is written at (spec/00_scope.md R8): `exec : State -> Command -> State x Response`,
total, plus the reset event, and a run with its outcome (spec/42_host_commands.md R94). The machine of Machine/Step.lean
performs exactly these transitions one at a time; that it does is stated among the obligations.
-/

namespace Sys2Proof.Machine

/-- R8's `exec`, on the block alone. -/
def transact : Instr → Block → Block × Response
  | .nop, b => transNop b
  | .loadu imm256, b => transLoadu imm256 b
  | .step, b => transStep b
  | .readu, b => transReadu b

/-- One move of the host on the block: a command gives one response, the reset event none (R52, R113). -/
def moveResult : HostMove → Block → Block × List Response
  | .reset, _ => (Block.reset, [])
  | .command c, b => ((transact (decode c) b).1, [(transact (decode c) b).2])

/-- A finite list of moves executed in order: the block it leaves and the responses in order (R37, R94). -/
def runMoves : List HostMove → Block → Block × List Response
  | [], b => (b, [])
  | m :: ms, b =>
    ((runMoves ms (moveResult m b).1).1, (moveResult m b).2 ++ (runMoves ms (moveResult m b).1).2)

/-- A run: the reset event, then the moves (R94). That further reset events may stand among the moves is log entry 17. -/
def runFromReset (moves : List HostMove) : Block × List Response :=
  runMoves moves Block.reset

/-- The function applied `n` times to a value (R95). -/
def iterate (f : Universe → Universe) : Nat → Universe → Universe
  | 0, v => v
  | n + 1, v => iterate f n (f v)

end Sys2Proof.Machine
end

