-- ==== Sys2Proof/Safety.lean ====
section
/-!
DEFINITION. What counts as a good state and a good run (spec/42_host_commands.md R94), the three-outcome reading of a faulted
state (spec/60_exceptions.md R101), and the invariants claims use (spec/10_state.md R22, R27).
-/

namespace Sys2Proof.Safety

open Sys2Proof.Machine

/-- A block is good when its `CAUSE` is NoFault (R94). -/
def good (b : Block) : Bool :=
  b.cause == .noFault

/-- A run is good when the final `CAUSE` is NoFault (R94). R94 writes a run as the reset event and then commands; the moves here may
hold further reset events, as program P3 of spec/95_test_vectors.md does, and the last `CAUSE` alone decides, so a run that faulted
and was reset afterwards counts as good. Both are the model's choice (DESIGN CHOICE, log entry 17). -/
def goodRun (moves : List HostMove) : Bool :=
  good (runFromReset moves).1

/-- The three-outcome reading of a state (R101): a faulted state is the fault outcome, a good state a next state. The step
itself answers the faulted state as a next state, because its responses go on (R101, R122, log entry 3). -/
def verdict (s : State) : Host.Outcome State Fault Refusal :=
  match s.block.cause with
  | .noFault => .next s
  | .uninitialisedUniverse => .fault .uninitialisedUniverse
  | .malformedUniverse => .fault .malformedUniverse

/-- What R27 says of reachable states: after UninitialisedUniverse nothing is loaded, after MalformedUniverse the loaded value is
malformed. -/
def blockInv (b : Block) : Bool :=
  match b.cause, b.u with
  | .noFault, _ => true
  | .uninitialisedUniverse, u => u.isNone
  | .malformedUniverse, some v => !wf v
  | .malformedUniverse, none => false

/-- The four status values a response can carry (R22). -/
def statusValues : List (BitVec 3) :=
  [0b000#3, 0b001#3, 0b010#3, 0b101#3]

/-- A response is one the block can give: its status is one of the four of R22, and it carries data only from a loaded block
with no fault (R52). -/
def responseInv (r : Response) : Bool :=
  statusValues.contains r.status && (r.data.isNone || r.status == 0b001#3)

/-- The invariant of the machine: the block's and every response's. -/
def inv (s : State) : Bool :=
  blockInv s.block && s.responses.all responseInv

/-- The universe of the block is well-formed, where one is loaded (R15). -/
def universeWf (b : Block) : Bool :=
  match b.u with
  | none => true
  | some v => wf v

/-- A move that keeps the universe well-formed: not a LOADU of a malformed value (spec/70_reset_and_hazards.md R117). -/
def moveWf : HostMove → Bool
  | .reset => true
  | .command c =>
    match decode c with
    | .nop => true
    | .loadu imm256 => wf imm256
    | .step => true
    | .readu => true

/-- States reached from the reset state with any moves waiting (R94). -/
inductive Reachable : State → Prop where
  | reset (moves : List HostMove) : Reachable (State.reset.present moves)
  | step (s t : State) : Reachable s → Machine.step s = .next t → Reachable t

end Sys2Proof.Safety
end

