-- ==== Sys2Proof/Certificates/Slice0/Obligations.lean ====
section
/-!
DEFINITION. The statements for the provers, by the spec's numbered rules. Where a docstring says that the spec derives a rule, the
spec marks it as its own inference; where it names a log entry, that clause is the model's choice.
-/

open Sys2Proof Sys2Proof.Machine

/-! ## Encoding -/

/-- R50, R51, R54 (a decision of the spec, D3): decoding what the encoder presents gives the command back, on the ports and on
the serial word at every length that holds it; the decoder loses no operand bit of LOADU; and re-encoding any ports keeps their
code. The serial word's numbering is the model's own (log entry 5). -/
def Obligations.DecodeAndEncodeAgree : Prop :=
  (∀ i : Instr, i.wellFormed = true → decode (encode i) = i) ∧
  (∀ (i : Instr) (nbits : Nat), 258 ≤ nbits → decodeTableWord nbits (wordOfPorts (encode i)) = some i) ∧
  (∀ c : CommandWord, portsOfWord (wordOfPorts c) = c) ∧
  (∀ c : CommandWord, (encode (decode c)).cmd = c.cmd) ∧
  (∀ c : CommandWord, c.cmd = 0b01#2 → encode (decode c) = c)

/-- R51: LOADU takes all 256 bits of `wdata` as they stand; NOP, STEP and READU ignore it. -/
def Obligations.OperandAssembly : Prop :=
  (∀ w : Universe, decode { cmd := 0b01#2, wdata := w } = .loadu w) ∧
  (∀ w : Universe, decode { cmd := 0b00#2, wdata := w } = .nop) ∧
  (∀ w : Universe, decode { cmd := 0b10#2, wdata := w } = .step) ∧
  (∀ w : Universe, decode { cmd := 0b11#2, wdata := w } = .readu)

/-- The codes of R50's opcode map as table words, and one LOADU word with an operand: cell (2, 5) alive, bit 84 of `wdata`, bit
86 of the serial word (log entry 5: the serial numbering is the model's). -/
def Obligations.TableWordsDecode : Prop :=
  decodeTableWord 8 0 = some .nop ∧
  decodeTableWord 8 1 = some (.loadu 0#256) ∧
  decodeTableWord 8 2 = some .step ∧
  decodeTableWord 8 3 = some .readu ∧
  decodeTableWord 264 (2 ^ 86 + 1) =
    some (.loadu 0x0000000000000000000000000000000000000000001000000000000000000000#256)

/-- R55, with R10's way of writing a 256-bit value: the text of a command parses back to it, with or without a comment after it.
What R55 leaves open of the text is the model's (log entry 10). -/
def Obligations.AssemblerRoundTrip : Prop :=
  ∀ (i : Instr) (comment : List Char),
    parseLine (printInstr i) = .ok (some (.instr i)) ∧
    parseLine (printInstr i ++ [' ', '-', '-'] ++ comment) = .ok (some (.instr i))

/-! ## One step of the machine -/

/-- R37, R8: the host's next command, decoded, is executed from exactly the state the one before left. What the step adds around
`exec` is that the move is taken. -/
def Obligations.StepRunsTheDecodedCommand : Prop :=
  ∀ (s : State) (c : CommandWord) (rest : List HostMove), s.pending = .command c :: rest →
    step s = exec (decode c) { s with pending := rest }

/-- R113, R26: the reset event sets every item of the block to its reset value and produces no response, from every state. -/
def Obligations.ResetEventResetsTheBlock : Prop :=
  ∀ (s : State) (rest : List HostMove), s.pending = .reset :: rest →
    step s = .next { block := { u := none, cause := .noFault }, pending := rest, responses := s.responses }

/-- With no move in hand a step changes nothing. The spec has no such step; log entry 4 is the model's reading of R8 and R94. -/
def Obligations.IdleStepChangesNothing : Prop :=
  ∀ s : State, s.pending = [] → step s = .next s

/-- From R122 and, for the reset event, R113: in every state every command has an outcome, a next state with exactly one response
more; and from every state with a move in hand the step answers a next state in which that move is taken and the others wait as they
did, a command with one response more and the reset event with none. That moves wait in a list is the model's form, log entry 1;
that the record of responses stays over the reset event, log entry 6. -/
def Obligations.EveryCommandCompletes : Prop :=
  (∀ (i : Instr) (s : State), ∃ (t : State) (r : Response), exec i s = .next t ∧ t.responses = s.responses ++ [r]) ∧
  (∀ (s : State) (m : HostMove) (rest : List HostMove), s.pending = m :: rest →
    ∃ t : State, step s = .next t ∧ t.pending = rest ∧
      (m = .reset → t.responses = s.responses) ∧ (m ≠ .reset → ∃ r : Response, t.responses = s.responses ++ [r]))

/-! ## The commands -/

/-- R87: `NOP` responds `(STATUS, none)` in every state, faulted or not, and writes nothing. -/
def Obligations.NopResponds : Prop :=
  (∀ w : Universe, decode { cmd := 0b00#2, wdata := w } = .nop) ∧
  (∀ s : State, exec .nop s =
    .next { s with responses := s.responses ++ [{ status := s.block.status, data := none }] })

/-- R88: on a block that is not faulted LOADU writes any 256-bit value unchecked, sets LOADED and responds `(0b001, none)`; on a
faulted block it leaves `U` and responds `(STATUS, none)`. Loading the value already in `U` changes nothing in the block.
What was loaded, malformed or not, READU reads back; if it is malformed the next STEP enters MalformedUniverse, and no other command
faults: NOP and READU leave the block as it is, and another LOADU leaves it unfaulted. -/
def Obligations.LoaduStoresAnyValue : Prop :=
  (∀ w : Universe, decode { cmd := 0b01#2, wdata := w } = .loadu w) ∧
  (∀ (s : State) (v : Universe), s.block.cause = .noFault →
    exec (.loadu v) s = .next
      { block := { u := some v, cause := .noFault }, pending := s.pending,
        responses := s.responses ++ [{ status := 0b001#3, data := none }] }) ∧
  (∀ (s : State) (v : Universe), s.block.cause ≠ .noFault →
    exec (.loadu v) s =
      .next { s with responses := s.responses ++ [{ status := s.block.status, data := none }] }) ∧
  (∀ (s t : State) (v : Universe), s.block.u = some v → exec (.loadu v) s = .next t → t.block = s.block) ∧
  (∀ (s t : State) (v : Universe), s.block.cause = .noFault → exec (.loadu v) s = .next t →
    exec .readu t = .next { t with responses := t.responses ++ [{ status := 0b001#3, data := some v }] } ∧
    (wf v = false → exec .step t = .next
      { block := { u := some v, cause := .malformedUniverse }, pending := t.pending,
        responses := t.responses ++ [{ status := 0b101#3, data := none }] }) ∧
    (∀ (i : Instr) (t' : State), exec i t = .next t' → i ≠ .step → t'.block.cause = .noFault) ∧
    (∀ (i : Instr) (t' : State), exec i t = .next t' → i = .nop ∨ i = .readu → t'.block = t.block))

/-- R82: `STEP`. A loaded, unfaulted block with a well-formed universe advances it one generation and responds `(0b001, none)`;
with a malformed universe it enters MalformedUniverse, with none loaded UninitialisedUniverse, and on a faulted block nothing
happens. The empty and the full universe both step to the empty universe. -/
def Obligations.StepAdvancesOneGeneration : Prop :=
  (∀ w : Universe, decode { cmd := 0b10#2, wdata := w } = .step) ∧
  (∀ (s : State) (p : Universe), s.block.cause = .noFault → s.block.u = some p → wf p = true →
    exec .step s = .next
      { block := { u := some (stepFn p), cause := .noFault }, pending := s.pending,
        responses := s.responses ++ [{ status := 0b001#3, data := none }] }) ∧
  (∀ (s : State) (p : Universe), s.block.cause = .noFault → s.block.u = some p → wf p = false →
    exec .step s = .next
      { block := { u := some p, cause := .malformedUniverse }, pending := s.pending,
        responses := s.responses ++ [{ status := 0b101#3, data := none }] }) ∧
  (∀ s : State, s.block.cause = .noFault → s.block.u = none →
    exec .step s = .next
      { block := { u := none, cause := .uninitialisedUniverse }, pending := s.pending,
        responses := s.responses ++ [{ status := 0b010#3, data := none }] }) ∧
  (∀ s : State, s.block.cause ≠ .noFault →
    exec .step s = .next { s with responses := s.responses ++ [{ status := s.block.status, data := none }] }) ∧
  stepFn 0#256 = 0#256 ∧
  stepFn 0x1111111111111111111111111111111111111111111111111111111111111111#256 = 0#256

/-- R89: `READU`. A loaded, unfaulted block responds `(0b001, U)`, malformed or not, and nothing changes; with none loaded it
enters UninitialisedUniverse; on a faulted block there is no data. -/
def Obligations.ReaduReturnsTheUniverse : Prop :=
  (∀ w : Universe, decode { cmd := 0b11#2, wdata := w } = .readu) ∧
  (∀ (s : State) (v : Universe), s.block.cause = .noFault → s.block.u = some v →
    exec .readu s = .next { s with responses := s.responses ++ [{ status := 0b001#3, data := some v }] }) ∧
  (∀ s : State, s.block.cause = .noFault → s.block.u = none →
    exec .readu s = .next
      { block := { u := none, cause := .uninitialisedUniverse }, pending := s.pending,
        responses := s.responses ++ [{ status := 0b010#3, data := none }] }) ∧
  (∀ s : State, s.block.cause ≠ .noFault →
    exec .readu s = .next { s with responses := s.responses ++ [{ status := s.block.status, data := none }] })

/-- The frame of NOP and READU (R17, R87, R89): `U`, LOADED and every byte of the byte view stay, the host's moves stay, the
responses before stay and one is added; CAUSE stays except that READU may enter UninitialisedUniverse from NoFault. -/
def Obligations.NopAndReaduFrame : Prop :=
  ∀ (i : Instr) (s t : State), i = .nop ∨ i = .readu → exec i s = .next t →
    t.block.u = s.block.u ∧ t.block.loaded = s.block.loaded ∧
    (∀ a : Nat, byteAt t.block a = byteAt s.block a) ∧
    t.pending = s.pending ∧ (∃ r, t.responses = s.responses ++ [r]) ∧
    (i = .nop → t.block.cause = s.block.cause) ∧
    (t.block.cause = s.block.cause ∨
      (s.block.cause = .noFault ∧ s.block.loaded = false ∧ t.block.cause = .uninitialisedUniverse))

/-- The frame of LOADU and STEP (R17, R82, R88, R100): every address outside the stored bytes reads as before, CAUSE is not
written by LOADU and only from NoFault by STEP, LOADED never falls and STEP does not write it, the host's moves and the responses
before stay, and a STEP that enters a fault leaves `U`. Where nothing is stored, every byte of memory reads as before: LOADU and STEP
on a faulted block, and STEP whenever no well-formed universe is loaded. -/
def Obligations.LoaduAndStepFrame : Prop :=
  (∀ (v : Universe) (s t : State), exec (.loadu v) s = .next t →
    (∀ a : Nat, a < accessAddress ∨ accessAddress + accessSize ≤ a → byteAt t.block a = byteAt s.block a) ∧
    t.block.cause = s.block.cause ∧ t.pending = s.pending ∧
    (s.block.cause ≠ .noFault → ∀ a : Nat, byteAt t.block a = byteAt s.block a) ∧
    (s.block.loaded = true → t.block.loaded = true) ∧ ∃ r, t.responses = s.responses ++ [r]) ∧
  (∀ s t : State, exec .step s = .next t →
    (∀ a : Nat, a < accessAddress ∨ accessAddress + accessSize ≤ a → byteAt t.block a = byteAt s.block a) ∧
    (s.block.cause ≠ .noFault → ∀ a : Nat, byteAt t.block a = byteAt s.block a) ∧
    ((∀ p, s.block.u = some p → wf p = false) → ∀ a : Nat, byteAt t.block a = byteAt s.block a) ∧
    t.block.loaded = s.block.loaded ∧ t.pending = s.pending ∧
    (t.block.cause ≠ s.block.cause → s.block.cause = .noFault ∧ t.block.u = s.block.u) ∧
    ∃ r, t.responses = s.responses ++ [r])

/-- R17: only LOADU, STEP and the reset event change `U`; a fault entry does not. -/
def Obligations.WhatWritesTheUniverse : Prop :=
  ∀ s t : State, step s = .next t → t.block.u ≠ s.block.u →
    (∃ rest, s.pending = .reset :: rest) ∨
    (s.block.cause = .noFault ∧ t.block.cause = .noFault ∧ ∃ c rest, s.pending = .command c :: rest ∧
      ((∃ v, decode c = .loadu v ∧ t.block.u = some v) ∨
        (decode c = .step ∧ ∃ p, s.block.u = some p ∧ wf p = true ∧ t.block.u = some (stepFn p))))

/-- R52: every command gives exactly one response; its status is STATUS as it stands after the command, and its data is `U` for a
READU that did not fault and none for everything else. -/
def Obligations.OneResponsePerCommand : Prop :=
  ∀ (i : Instr) (s t : State), exec i s = .next t →
    ∃ r : Response, t.responses = s.responses ++ [r] ∧ r.status = t.block.status ∧
      (i = .readu ∧ t.block.cause = .noFault → r.data = t.block.u ∧ r.data.isSome = true) ∧
      (¬ (i = .readu ∧ t.block.cause = .noFault) → r.data = none)

/-- R22: `STATUS[0]` is LOADED and `STATUS[2:1]` is the code of CAUSE (R20), in every state. -/
def Obligations.StatusIsCauseAndLoaded : Prop :=
  ∀ b : Block, statusLoaded b.status = b.loaded ∧ statusCause b.status = b.cause.code ∧
    (b.cause.code = 0b00#2 ↔ b.cause = .noFault) ∧
    (b.cause.code = 0b01#2 ↔ b.cause = .uninitialisedUniverse) ∧
    (b.cause.code = 0b10#2 ↔ b.cause = .malformedUniverse) ∧ b.cause.code ≠ 0b11#2

/-- R34, R88: reading has no side effect on an unfaulted loaded block, two reads return the same value, and a LOADU issued twice
leaves the block as once. -/
def Obligations.ReadTwiceAndLoadTwice : Prop :=
  (∀ (b : Block) (v : Universe), b.cause = .noFault → b.u = some v →
    (transact .readu b).1 = b ∧ transact .readu (transact .readu b).1 = transact .readu b) ∧
  (∀ (b : Block) (v : Universe), (transact (.loadu v) (transact (.loadu v) b).1).1 = (transact (.loadu v) b).1)

/-- R30: MemRead and MemWrite are the whole register at (0, 32) and have no meaning at any other pair; READU is the one, LOADU the
other. -/
def Obligations.MemoryPrimitivesAtFullWidth : Prop :=
  (∀ b : Block, memRead b 0 32 = b.u) ∧
  (∀ (b : Block) (v : Universe), memWrite b 0 32 v = some { u := some v, cause := b.cause }) ∧
  (∀ (b : Block) (addr n : Nat) (v : Universe), (addr, n) ≠ (0, 32) → memRead b addr n = none ∧ memWrite b addr n v = none) ∧
  (∀ b : Block, b.cause = .noFault → (transact .readu b).2.data = memRead b 0 32) ∧
  (∀ (b : Block) (v : Universe), b.cause = .noFault → some (transact (.loadu v) b).1 = memWrite b 0 32 v)

/-! ## Faults and reset -/

/-- R97: UninitialisedUniverse, code 0b01, is entered by STEP and READU, and by no other command, exactly when CAUSE = 0 and
LOADED = 0 at the start; nothing else is recorded. -/
def Obligations.UninitialisedFaultExactly : Prop :=
  Cause.uninitialisedUniverse.code = 0b01#2 ∧
  ∀ (i : Instr) (s t : State), exec i s = .next t →
    ((s.block.cause = .noFault ∧ t.block.cause = .uninitialisedUniverse) ↔
      ((i = .step ∨ i = .readu) ∧ s.block.cause = .noFault ∧ s.block.loaded = false)) ∧
    (s.block.cause = .noFault → t.block.cause = .uninitialisedUniverse → t.block.u = s.block.u)

/-- R98: MalformedUniverse, code 0b10, is entered by STEP, and by no other command, exactly when CAUSE = 0, LOADED = 1 and some
nibble of `U` holds a value from 2 to 15; `U` keeps the malformed value. -/
def Obligations.MalformedFaultExactly : Prop :=
  Cause.malformedUniverse.code = 0b10#2 ∧
  ∀ (i : Instr) (s t : State), exec i s = .next t →
    ((s.block.cause = .noFault ∧ t.block.cause = .malformedUniverse) ↔
      (i = .step ∧ s.block.cause = .noFault ∧
        ∃ v, s.block.u = some v ∧ ∃ k : Fin 64, 2 ≤ (nib v k).toNat)) ∧
    (s.block.cause = .noFault → t.block.cause = .malformedUniverse → t.block.u = s.block.u)

/-- R100: fault entry writes the code to CAUSE and nothing else, and responds with the new STATUS and no data. A command that
enters a fault has had no other effect. -/
def Obligations.FaultEntryWritesCauseOnly : Prop :=
  (∀ (f : Fault) (b : Block), raise f b =
    ({ u := b.u, cause := f.cause }, { status := f.cause.code ++ BitVec.ofBool b.u.isSome, data := none })) ∧
  (∀ (i : Instr) (s t : State), exec i s = .next t → s.block.cause = .noFault → t.block.cause ≠ .noFault →
    ∃ f : Fault, t = s.commit (raise f s.block))

/-- R101, R99: a faulted block answers every list of commands without change, each with `(STATUS, none)`, so CAUSE keeps the first
fault since reset; a faulted state is not good and its three-outcome reading is the fault. That a faulted command is a next state, and
that the three-outcome reading is `Safety.verdict`, are the model's reading of R101, log entry 3. -/
def Obligations.FaultedBlockAbsorbs : Prop :=
  (∀ (i : Instr) (s : State), s.block.cause ≠ .noFault →
    exec i s = .next { s with responses := s.responses ++ [{ status := s.block.status, data := none }] }) ∧
  (∀ (cs : List CommandWord) (b : Block), b.cause ≠ .noFault →
    runMoves (cs.map .command) b = (b, List.replicate cs.length { status := b.status, data := none })) ∧
  (∀ s : State, s.block.cause ≠ .noFault →
    Safety.good s.block = false ∧ ∃ f : Fault, f.cause = s.block.cause ∧ Safety.verdict s = .fault f)

/-- R102, R113: the reset event is the only thing that clears CAUSE and the only thing that clears LOADED. -/
def Obligations.OnlyResetClears : Prop :=
  ∀ s t : State, step s = .next t → (∀ rest, s.pending ≠ .reset :: rest) →
    (s.block.cause ≠ .noFault → t.block.cause = s.block.cause) ∧ (s.block.loaded = true → t.block.loaded = true)

/-- R26: after reset LOADED = 0, CAUSE = 0b00, STATUS = 0b000 and `U` holds no value; both commands that read `U` fault and
show no data. -/
def Obligations.ResetValues : Prop :=
  State.reset.block.loaded = false ∧ State.reset.block.cause.code = 0b00#2 ∧ State.reset.block.status = 0b000#3 ∧
  State.reset.block.u = none ∧
  (∃ t, exec .step State.reset = .next t ∧ t.block.cause = .uninitialisedUniverse ∧
    ∀ r ∈ t.responses, r.data = none) ∧
  (∃ t, exec .readu State.reset = .next t ∧ t.block.cause = .uninitialisedUniverse ∧
    ∀ r ∈ t.responses, r.data = none)

/-- R114: after a reset event the old universe is not recoverable: from every state, a reset followed by any commands other than
LOADU gives responses without data. -/
def Obligations.ResetForgetsTheUniverse : Prop :=
  ∀ (b : Block) (cs : List CommandWord), (∀ c ∈ cs, c.cmd ≠ 0b01#2) →
    ∀ r ∈ (runMoves (.reset :: cs.map .command) b).2, r.data = none

/-! ## Invariants -/

/-- R22, R27, R52, as the spec derives them: the invariant of R27 on the block, and every response's status one of the four values
of R22 with data only beside 0b001, is kept by every step, from every state that meets it. -/
def Obligations.StepKeepsTheInvariant : Prop :=
  ∀ s t : State, Safety.inv s = true → step s = .next t → Safety.inv t = true

/-- The invariant holds at reset with any moves waiting. -/
def Obligations.ResetMeetsTheInvariant : Prop :=
  ∀ moves : List HostMove, Safety.inv (State.reset.present moves) = true

/-- R15, R83, R117: from every state whose universe is well-formed, a step whose move is no LOADU of a malformed value leaves it
well-formed, and leaves an unfaulted loaded block unfaulted and, but for a reset, loaded. -/
def Obligations.WellFormednessIsKept : Prop :=
  ∀ s t : State, Safety.universeWf s.block = true → (∀ m rest, s.pending = m :: rest → Safety.moveWf m = true) →
    step s = .next t →
      Safety.universeWf t.block = true ∧
      (s.block.cause = .noFault → s.block.loaded = true → t.block.cause = .noFault) ∧
      (s.block.cause = .noFault → s.block.loaded = true → (∀ rest, s.pending ≠ .reset :: rest) → t.block.loaded = true)

/-- R22, as the spec derives it: the status values reached are exactly 0b000, 0b001, 0b010 and 0b101. -/
def Obligations.ReachableStatusValues : Prop :=
  (∀ s : State, Safety.Reachable s → s.block.status ∈ Safety.statusValues) ∧
  (∀ st ∈ Safety.statusValues, ∃ s : State, Safety.Reachable s ∧ s.block.status = st)

/-- R29, R31: the byte view of every block is in its canonical form and agrees with the bytes one by one; byte `4r + j` holds the
odd column above the even; the bytes of a well-formed universe are 0x00, 0x01, 0x10 or 0x11; and 32 bytes laid out little-endian
give the value back. -/
def Obligations.ByteViewOfTheUniverse : Prop :=
  (∀ b : Block, Memory.wf (byteView b) = true) ∧
  (∀ (b : Block) (a : Nat) (x : Byte), (a, x) ∈ byteView b ↔ byteAt b a = some x) ∧
  (∀ (v : Universe) (r : Fin 8) (j : Fin 4), byte v ⟨4 * r.val + j.val, by omega⟩ =
    field v r ⟨2 * j.val + 1, by omega⟩ ++ field v r ⟨2 * j.val, by omega⟩) ∧
  (∀ (v : Universe) (a : Fin 32), wf v = true → byte v a ∈ ([0x00#8, 0x01#8, 0x10#8, 0x11#8] : List Byte)) ∧
  (∀ v : Universe, ofBytes ((List.finRange 32).map (byte v)) = v)

/-! ## Runs -/

/-- R94, R37, R8: the machine performs a run: as many steps as there are moves leave the block and the responses of the spec's
`exec` applied in the order the host issues the moves. -/
def Obligations.MachinePerformsTheRun : Prop :=
  ∀ (moves rest : List HostMove) (s : State), s.pending = moves ++ rest →
    Host.Core.run core moves.length s = .next
      { block := (runMoves moves s.block).1, pending := rest,
        responses := s.responses ++ (runMoves moves s.block).2 }

/-- R37: the machine executes the host's moves one after another. After the first moves it stands, with the others in hand, exactly
where those moves leave it, and the next ones start from there. Every read of `U` returns the value of the most recent write in
command order, whatever moves came before it and whatever NOPs and READUs stand between: the operand of a LOADU, or the generation a
STEP wrote. -/
def Obligations.SequentialComposition : Prop :=
  (∀ (ms ns rest : List HostMove) (s : State), s.pending = ms ++ ns ++ rest →
    ∃ s₁ : State, Host.Core.run core ms.length s = .next s₁ ∧ s₁.pending = ns ++ rest ∧
      s₁.block = (runMoves ms s.block).1 ∧
      Host.Core.run core (ms.length + ns.length) s = .next
        { block := (runMoves ns s₁.block).1, pending := rest, responses := s₁.responses ++ (runMoves ns s₁.block).2 }) ∧
  (∀ (ms rest : List HostMove) (cs : List CommandWord) (v : Universe) (s : State),
    s.pending = ms ++ [commandMove (.loadu v)] ++ cs.map .command ++ [commandMove .readu] ++ rest →
    (runMoves ms s.block).1.cause = .noFault → (∀ c ∈ cs, decode c = .nop ∨ decode c = .readu) →
    ∃ t : State, Host.Core.run core (ms.length + 1 + cs.length + 1) s = .next t ∧ t.pending = rest ∧
      t.block = { u := some v, cause := .noFault } ∧
      t.responses.getLast? = some { status := 0b001#3, data := some v }) ∧
  (∀ (ms rest : List HostMove) (cs : List CommandWord) (p : Universe) (s : State),
    s.pending = ms ++ [commandMove .step] ++ cs.map .command ++ [commandMove .readu] ++ rest →
    (runMoves ms s.block).1 = { u := some p, cause := .noFault } → wf p = true →
    (∀ c ∈ cs, decode c = .nop ∨ decode c = .readu) →
    ∃ t : State, Host.Core.run core (ms.length + 1 + cs.length + 1) s = .next t ∧ t.pending = rest ∧
      t.block = { u := some (stepFn p), cause := .noFault } ∧
      t.responses.getLast? = some { status := 0b001#3, data := some (stepFn p) })

/-- R95, as the spec derives it: on a block that is not faulted, `LOADU v`, `n` times STEP, `READU` returns the `n`-th iterate of
STEP_FN on a well-formed `v`, which is `encode(LIFE^n(decode(v)))`, with status 0b001 throughout. -/
def Obligations.GenerationLaw : Prop :=
  ∀ (b : Block) (v : Universe) (n : Nat), b.cause = .noFault → wf v = true →
    runMoves ([commandMove (.loadu v)] ++ List.replicate n (commandMove .step) ++ [commandMove .readu]) b =
      ({ u := some (iterate stepFn n v), cause := .noFault },
        List.replicate (n + 1) { status := 0b001#3, data := none } ++
          [{ status := 0b001#3, data := some (iterate stepFn n v) }]) ∧
    encodeCells (lifeIterate n (decodeCells v)) = .ok (iterate stepFn n v)

/-- R56 with R80: LOADCELLS, `STEPN n`, READCELLS on an unfaulted block shows the host LIFE applied `n` times to its cells; a
sequence that is not valid is refused with InvalidInput and issues nothing. -/
def Obligations.HostSeesLife : Prop :=
  (∀ (b : Block) (cells : List Nat) (n : Nat), b.cause = .noFault → validCells cells = true →
    ∃ ms, expandLines [.pseudo (.loadCells cells), .pseudo (.stepN n), .pseudo .readCells] = .ok ms ∧
      (runMoves ms b).2.getLast?.bind observedCells = some (lifeIterate n cells)) ∧
  (∀ cells : List Nat, validCells cells = false → expandPseudo (.loadCells cells) = .error .invalidInput)

/-! ## Primitives -/

/-- R59 to R62: the four rotations at cell level, for all rows and columns modulo 8, and at bit level as rotations of the whole
value by 32 bits or of every lane by 4. -/
def Obligations.RotationsMoveFields : Prop :=
  ∀ (v : Universe) (r c : Fin 8),
    field (rotRowUp v) r c = field v (r + 1) c ∧ field (rotRowDn v) r c = field v (r - 1) c ∧
    field (rotColL v) r c = field v r (c + 1) ∧ field (rotColR v) r c = field v r (c - 1) ∧
    rotRowUp v = v.rotateRight 32 ∧ rotRowDn v = v.rotateLeft 32 ∧
    lane (rotColL v) r = (lane v r).rotateRight 4 ∧ lane (rotColR v) r = (lane v r).rotateLeft 4

/-- R63, as the spec derives it: (a) the rotations are inverse in pairs, (b) row and column rotations commute, (c) each applied 8
times is the identity, (d) each permutes the 64 fields unchanged, keeps WF and the number of live cells. -/
def Obligations.RotationLaws : Prop :=
  (∀ v : Universe, rotRowUp (rotRowDn v) = v ∧ rotRowDn (rotRowUp v) = v ∧
    rotColL (rotColR v) = v ∧ rotColR (rotColL v) = v) ∧
  (∀ row ∈ [rotRowUp, rotRowDn], ∀ col ∈ [rotColL, rotColR], ∀ v : Universe, row (col v) = col (row v)) ∧
  (∀ rot ∈ [rotRowUp, rotRowDn, rotColL, rotColR], ∀ v : Universe, iterate rot 8 v = v) ∧
  (∀ rot ∈ [rotRowUp, rotRowDn, rotColL, rotColR],
    (∃ σ : Fin 64 → Fin 64, Function.Bijective σ ∧ ∀ (v : Universe) (k : Fin 64), nib (rot v) k = nib v (σ k)) ∧
    (∀ v : Universe, wf (rot v) = wf v) ∧ (∀ v : Universe, population (rot v) = population v))

/-- R64: ADD4 adds every field on its own modulo 16, is commutative and associative, and has 0 as its identity. -/
def Obligations.Add4AddsFieldsModulo16 : Prop :=
  (∀ (a b : Universe) (k : Fin 64), (nib (add4 a b) k).toNat = ((nib a k).toNat + (nib b k).toNat) % 16) ∧
  (∀ a b : Universe, add4 a b = add4 b a) ∧
  (∀ a b c : Universe, add4 (add4 a b) c = add4 a (add4 b c)) ∧
  (∀ a : Universe, add4 a 0#256 = a)

/-- R65: the ADD4 sum of at most 15 well-formed values has in every field the true integer sum of the fields, at most the number
of summands; no field wraps. In a STEP there are eight summands. -/
def Obligations.NoCarryBound : Prop :=
  (∀ vs : List Universe, vs.length ≤ 15 → (∀ v ∈ vs, wf v = true) → ∀ k : Fin 64,
    (nib (gather vs) k).toNat = (vs.map fun v => (nib v k).toNat).sum ∧
    (nib (gather vs) k).toNat ≤ vs.length) ∧
  (∀ p : Universe, (views p).length = 8 ∧ count p = gather (views p))

/-- R66, as the spec derives it: where no field sum reaches 16, ADD4 equals the 256-bit sum and the sums in independent lanes of
8, 16, 32 and 64 bits; without the bound it does not. -/
def Obligations.AdderWidthUnobservable : Prop :=
  (∀ a b : Universe, (∀ k : Fin 64, (nib a k).toNat + (nib b k).toNat < 16) →
    add4 a b = a + b ∧ add4 a b = addLanes 8 32 a b ∧ add4 a b = addLanes 16 16 a b ∧
    add4 a b = addLanes 32 8 a b ∧ add4 a b = addLanes 64 4 a b) ∧
  (∃ a b : Universe, add4 a b ≠ a + b)

/-- R68: OR256 is the bitwise or, which moves nothing between fields; with a field of 0 or 1 it sets the lowest bit of the field
when that is 1 and leaves the other three. -/
def Obligations.Or256SetsTheLowestBit : Prop :=
  ∀ (a b : Universe) (k : Fin 64),
    (∀ i : Nat, (or256 a b).getLsbD i = (a.getLsbD i || b.getLsbD i)) ∧
    nib (or256 a b) k = nib a k ||| nib b k ∧
    (nib b k = 0#4 → nib (or256 a b) k = nib a k) ∧
    (nib b k = 1#4 → (nib (or256 a b) k).toNat = 2 * ((nib a k).toNat / 2) + 1)

/-- R69: EQ3 gives 1 in a field exactly where the field equals 3 and 0 elsewhere, and EQ3(0) = 0; its result is well-formed for
every operand. -/
def Obligations.Eq3ComparesFieldsWith3 : Prop :=
  (∀ (v : Universe) (k : Fin 64),
    (nib v k = 3#4 → nib (eq3 v) k = 1#4) ∧ (nib v k ≠ 3#4 → nib (eq3 v) k = 0#4)) ∧
  (∀ v : Universe, wf (eq3 v) = true) ∧ eq3 0#256 = 0#256

/-! ## The step function -/

/-- R73: each of the eight views shows every cell one neighbour, rows and columns modulo 8, and is well-formed when `P` is. -/
def Obligations.ViewsShowNeighbours : Prop :=
  ∀ p : Universe,
    (∃ vS vN vE vW vSE vSW vNE vNW : Universe,
      views p = [vS, vN, vE, vW, vSE, vSW, vNE, vNW] ∧
      vS = rotRowUp p ∧ vN = rotRowDn p ∧ vE = rotColL p ∧ vW = rotColR p ∧
      vSE = rotColL (rotRowUp p) ∧ vSW = rotColR (rotRowUp p) ∧
      vNE = rotColL (rotRowDn p) ∧ vNW = rotColR (rotRowDn p) ∧
      ∀ r c : Fin 8,
        field vS r c = field p (r + 1) c ∧ field vN r c = field p (r - 1) c ∧
        field vE r c = field p r (c + 1) ∧ field vW r c = field p r (c - 1) ∧
        field vSE r c = field p (r + 1) (c + 1) ∧ field vSW r c = field p (r + 1) (c - 1) ∧
        field vNE r c = field p (r - 1) (c + 1) ∧ field vNW r c = field p (r - 1) (c - 1)) ∧
    (wf p = true → ∀ v ∈ views p, wf v = true)

/-- R74: COUNT does not depend on the order of the eight summands, on their grouping, or on a start from zero (D7): every way to
group a sum whose leaves are the eight views in any order, with an all-zero summand beside them or without, gives it, and so does
the accumulation from the left in any order. -/
def Obligations.OrderOfSummandsImmaterial : Prop :=
  (∀ (p : Universe) (t : SumTree), (sumTreeLeaves t).Perm (views p) → sumTreeValue t = count p) ∧
  (∀ (p : Universe) (t : SumTree), (sumTreeLeaves t).Perm (0#256 :: views p) → sumTreeValue t = count p) ∧
  (∀ (p : Universe) (l : List Universe), l.Perm (views p) → gather l = count p ∧ l.foldl add4 0#256 = count p) ∧
  (∀ (p : Universe) (l m : List Universe), (l ++ m).Perm (views p) → add4 (gather l) (gather m) = count p)

/-- R74, as the spec derives it: on `encode(cells)` every field of COUNT is the true live-neighbour count of R71, at most 8. -/
def Obligations.CountIsLiveNeighbours : Prop :=
  ∀ cells : List Nat, validCells cells = true → ∀ r c : Fin 8,
    cell (count (packCells cells)) r c = liveNeighbours cells r c ∧ liveNeighbours cells r c ≤ 8

/-- R75: on a well-formed `P` the merged field is the live-neighbour count `n(r, c)` of R71 for a dead cell and `n(r, c)` with bit 0
set for a live one, so 0 to 8 for a dead cell and one of 1, 3, 5, 7, 9 for a live one. -/
def Obligations.MergeSetsTheSelfBit : Prop :=
  (∀ p : Universe, merged p = or256 (count p) p) ∧
  ∀ p : Universe, wf p = true → ∀ r c : Fin 8,
    (field p r c = 0#4 →
      cell (merged p) r c = liveNeighbours (decodeCells p) r c ∧ cell (merged p) r c ≤ 8) ∧
    (field p r c = 1#4 →
      cell (merged p) r c = liveNeighbours (decodeCells p) r c ||| 1 ∧ cell (merged p) r c ∈ [1, 3, 5, 7, 9])

/-- R77: one comparison with 3 is the whole rule B3/S23, in all 18 cases, and the rule of R72 is the birth and survival sets of
R6. -/
def Obligations.OneCompareIsTheRule : Prop :=
  ∀ n : Fin 9, ∀ a : Fin 2,
    (if n.val ||| a.val = 3 then 1 else 0) = lifeRule a.val n.val ∧
    (lifeRule a.val n.val = 1 ↔ if a.val = 0 then n.val ∈ Config.birth else n.val ∈ Config.survive)

/-- R80, as the spec derives it, the main theorem: on every valid cell sequence the packed step computes one generation of the
reference semantics, `STEP_FN(encode(cells)) = encode(LIFE(cells))`, equally through `decode`; and STEP_FN gives a well-formed
value for every operand. -/
def Obligations.StepFnComputesLife : Prop :=
  (∀ (cells : List Nat) (v : Universe), encodeCells cells = .ok v →
    encodeCells (life cells) = .ok (stepFn v) ∧ decodeCells (stepFn v) = life cells) ∧
  (∀ p : Universe, wf (stepFn p) = true)

/-- R79, as the spec derives it: swapping the definitions of the two row rotations, or of the two column rotations, or both,
changes neither COUNT nor STEP_FN; and with row 0, column 0 or both at the other end of the bits the step still computes LIFE, every
cell sequence being encoded by the same choice. -/
def Obligations.DirectionNamesImmaterial : Prop :=
  (∀ cells : List Nat, validCells cells = true →
    stepFn (reverseRows (packCells cells)) = reverseRows (packCells (life cells)) ∧
    stepFn (reverseCols (packCells cells)) = reverseCols (packCells (life cells)) ∧
    stepFn (reverseRows (reverseCols (packCells cells))) = reverseRows (reverseCols (packCells (life cells)))) ∧
  ∀ p : Universe,
    countWith rotRowDn rotRowUp rotColL rotColR p = count p ∧
    countWith rotRowUp rotRowDn rotColR rotColL p = count p ∧
    countWith rotRowDn rotRowUp rotColR rotColL p = count p ∧
    stepFnWith rotRowUp rotRowDn rotColL rotColR p = stepFn p ∧
    stepFnWith rotRowDn rotRowUp rotColL rotColR p = stepFn p ∧
    stepFnWith rotRowUp rotRowDn rotColR rotColL p = stepFn p ∧
    stepFnWith rotRowDn rotRowUp rotColR rotColL p = stepFn p

/-- R86, as the spec derives it: STEP_FN commutes with each of the four rotations on every well-formed value. -/
def Obligations.TranslationSymmetry : Prop :=
  ∀ rot ∈ [rotRowUp, rotRowDn, rotColL, rotColR], ∀ v : Universe, wf v = true → stepFn (rot v) = rot (stepFn v)

/-- R124, as the spec derives it: STEP_FN is a straight line of 17 primitive applications: 2 row rotations, 6 column rotations, 7
ADD4, 1 OR256 and 1 EQ3, none of which depends on the data. -/
def Obligations.StepFnIsSeventeenPrimitives : Prop :=
  (∀ p : Universe, scheduleResult stepSchedule p = stepFn p) ∧ stepSchedule.length = 17 ∧
  (stepSchedule.countP fun op => match op with | .rotRowUp _ => true | .rotRowDn _ => true | _ => false) = 2 ∧
  (stepSchedule.countP fun op => match op with | .rotColL _ => true | .rotColR _ => true | _ => false) = 6 ∧
  (stepSchedule.countP fun op => match op with | .add4 _ _ => true | _ => false) = 7 ∧
  (stepSchedule.countP fun op => match op with | .or256 _ _ => true | _ => false) = 1 ∧
  (stepSchedule.countP fun op => match op with | .eq3 _ => true | _ => false) = 1

/-! ## The codec -/

/-- R44, R48: `encode` succeeds exactly on valid sequences, with the value `sum of cells[k] * 2^(4k)` and the nibbles
`zext_4(cells[k])`; on any other sequence it is InvalidInput and LOADCELLS issues nothing. -/
def Obligations.EncodeIsTheWeightedSum : Prop :=
  (∀ cells : List Nat, validCells cells = true → ∃ v, encodeCells cells = .ok v ∧
    v.toNat = ((List.range 64).map fun k => cells.getD k 0 * 2 ^ (4 * k)).sum ∧
    ∀ k : Fin 64, (nib v k).toNat = cells.getD k.val 0) ∧
  (∀ cells : List Nat, validCells cells = true ↔ cells.length = 64 ∧ ∀ a ∈ cells, a = 0 ∨ a = 1) ∧
  (∀ cells : List Nat, validCells cells = false →
    encodeCells cells = .error .invalidInput ∧ expandPseudo (.loadCells cells) = .error .invalidInput)

/-- R47: `decode` is the two-sided inverse of `encode`: on valid sequences and on well-formed values. -/
def Obligations.CodecRoundTrip : Prop :=
  (∀ (cells : List Nat) (v : Universe), encodeCells cells = .ok v → decodeCells v = cells) ∧
  (∀ v : Universe, wf v = true → encodeCells (decodeCells v) = .ok v)

/-- R45, as the spec derives it: `encode` of a valid sequence is well-formed, and every well-formed value is `encode` of exactly
one valid sequence. -/
def Obligations.EncodeIsABijection : Prop :=
  (∀ (cells : List Nat) (v : Universe), encodeCells cells = .ok v → wf v = true) ∧
  (∀ v : Universe, wf v = true → ∃! cells : List Nat, validCells cells = true ∧ encodeCells cells = .ok v)

/-! ## Isolation -/

/-- R110 (D18): several blocks share nothing. A step of one leaves every other as it was, steps of two commute, and what the
machine at a place becomes under a schedule depends on that machine and on how often the place is scheduled, on nothing else. -/
def Obligations.BlocksAreIndependent : Prop :=
  (∀ (i j : Nat) (sys : List State), i ≠ j → (stepAt i sys)[j]? = sys[j]?) ∧
  (∀ (i j : Nat) (sys : List State), stepAt i (stepAt j sys) = stepAt j (stepAt i sys)) ∧
  (∀ (j : Nat) (sched sched' : List Nat) (sys sys' : List State), sys[j]? = sys'[j]? → sched.count j = sched'.count j →
    (runSystem sched sys)[j]? = (runSystem sched' sys')[j]?)

/-- R51: what stands on `wdata` during NOP, STEP and READU has no effect: two machines whose next commands differ in it alone
take the same step. -/
def Obligations.IgnoredOperandHasNoEffect : Prop :=
  ∀ (s s' : State) (op : Opcode) (w w' : Universe) (rest : List HostMove), op ≠ 0b01#2 →
    s.block = s'.block → s.responses = s'.responses →
    s.pending = .command { cmd := op, wdata := w } :: rest → s'.pending = .command { cmd := op, wdata := w' } :: rest →
    step s = step s'
end

