-- ==== Sys2Proof/Laws/Views.lean ====
section
/-!
SUPPORT. The laws of the views of Machine/Views.lean: cutting and packing are inverse, a value is determined by its nibbles, the
views of spec/00_scope.md R11 agree with each other, and `wf` says that every nibble is 0 or 1.
-/

namespace Sys2Proof.Laws

open Sys2Proof.Machine

/-- Bits of one field of a value under construction: the fold over a list of distinct fields sets exactly theirs. -/
theorem packFold_getLsbD {w n : Nat} (f : Fin n → BitVec w) (hw : w * n ≤ 256) (k : Fin n) (i : Nat) (hi : i < w)
    (l : List (Fin n)) :
    (l.foldr (fun k acc => acc ||| (f k).setWidth 256 <<< (w * k.val)) 0#256).getLsbD (w * k.val + i)
      = (decide (k ∈ l) && (f k).getLsbD i) := by
  have hk : w * k.val + w ≤ w * n := by
    have := Nat.mul_le_mul_left w (Nat.succ_le_of_lt k.isLt)
    rwa [Nat.mul_succ] at this
  induction l with
  | nil => simp
  | cons j l ih =>
    rw [List.foldr_cons, BitVec.getLsbD_or, ih]
    by_cases hjk : k = j
    · subst hjk
      have h256 : w * k.val + i < 256 := by omega
      simp [h256]
    · have hne : k.val ≠ j.val := fun h => hjk (Fin.ext h)
      rcases Nat.lt_or_gt_of_ne hne with h | h
      · have hlt : w * k.val + i < w * j.val := by
          have := Nat.mul_le_mul_left w (Nat.succ_le_of_lt h)
          rw [Nat.mul_succ] at this
          omega
        simp [hjk, hlt]
      · have hge : w ≤ w * k.val + i - w * j.val := by
          have := Nat.mul_le_mul_left w (Nat.succ_le_of_lt h)
          rw [Nat.mul_succ] at this
          omega
        simp [hjk, BitVec.getLsbD_of_ge _ _ hge]

/-- Cutting a packed value gives the field that was packed. -/
theorem fieldAt_pack {w n : Nat} (f : Fin n → BitVec w) (hw : w * n ≤ 256) (k : Fin n) :
    fieldAt w (pack w f) k.val = f k := by
  apply BitVec.eq_of_getLsbD_eq
  intro i hi
  simp only [fieldAt, BitVec.getLsbD_extractLsb', hi, decide_true, Bool.true_and, pack]
  rw [packFold_getLsbD f hw k i hi]
  simp

@[simp] theorem nib_pack (f : Fin 64 → Nibble) (k : Fin 64) : nib (pack 4 f) k = f k :=
  fieldAt_pack f (by decide) k

@[simp] theorem lane_pack (f : Fin 8 → Lane) (r : Fin 8) : lane (pack 32 f) r = f r :=
  fieldAt_pack f (by decide) r

@[simp] theorem byte_pack (f : Fin 32 → Byte) (b : Fin 32) : byte (pack 8 f) b = f b :=
  fieldAt_pack f (by decide) b

/-- A value is determined by its fields, for any width that divides 256. -/
theorem ext_fieldAt {w n : Nat} (hw : w * n = 256) (hpos : 0 < w) {v v' : Universe}
    (h : ∀ k : Fin n, fieldAt w v k.val = fieldAt w v' k.val) : v = v' := by
  apply BitVec.eq_of_getLsbD_eq
  intro i hi
  have hk : i / w < n := Nat.div_lt_of_lt_mul (hw ▸ hi)
  have hb := congrArg (fun x : BitVec w => x.getLsbD (i % w)) (h ⟨i / w, hk⟩)
  simpa [fieldAt, Nat.mod_lt i hpos, Nat.div_add_mod] using hb

/-- A value is determined by its 64 nibbles. -/
theorem ext_nib {v v' : Universe} (h : ∀ k : Fin 64, nib v k = nib v' k) : v = v' :=
  ext_fieldAt (w := 4) (n := 64) rfl (by decide) h

/-- A value is determined by its eight lanes. -/
theorem ext_lane {v v' : Universe} (h : ∀ r : Fin 8, lane v r = lane v' r) : v = v' :=
  ext_fieldAt (w := 32) (n := 8) rfl (by decide) h

/-- `field(v, r, c) = nib(v, 8r + c)` (R11). -/
theorem field_eq_nib (v : Universe) (r c : Fin 8) : field v r c = nib v (flatIndex r c) := by
  have h : 32 * r.val + 4 * c.val = 4 * (8 * r.val + c.val) := by omega
  simp only [field, nib, fieldAt, flatIndex, h]

@[simp] theorem flatIndex_rowOf_colOf (k : Fin 64) : flatIndex (rowOf k) (colOf k) = k := by
  ext; simp only [flatIndex, rowOf, colOf]; omega

@[simp] theorem rowOf_flatIndex (r c : Fin 8) : rowOf (flatIndex r c) = r := by
  ext; simp [flatIndex, rowOf]; omega

@[simp] theorem colOf_flatIndex (r c : Fin 8) : colOf (flatIndex r c) = c := by
  ext; simp [flatIndex, colOf]

/-- A nibble is the field of its row and column (R41). -/
theorem nib_eq_field (v : Universe) (k : Fin 64) : nib v k = field v (rowOf k) (colOf k) := by
  rw [field_eq_nib, flatIndex_rowOf_colOf]

/-- A value is determined by its 64 fields by row and column. -/
theorem ext_field {v v' : Universe} (h : ∀ r c : Fin 8, field v r c = field v' r c) : v = v' :=
  ext_nib fun k => by rw [nib_eq_field, nib_eq_field, h]

@[simp] theorem field_reverseRows (v : Universe) (r c : Fin 8) : field (reverseRows v) r c = field v (7 - r) c := by
  rw [field_eq_nib, reverseRows, nib_pack, rowOf_flatIndex, colOf_flatIndex]

@[simp] theorem field_reverseCols (v : Universe) (r c : Fin 8) : field (reverseCols v) r c = field v r (7 - c) := by
  rw [field_eq_nib, reverseCols, nib_pack, rowOf_flatIndex, colOf_flatIndex]

/-- A field lies inside its row's lane, at bits `4c + 3 : 4c` (R11). -/
theorem field_eq_lane (v : Universe) (r c : Fin 8) : field v r c = (lane v r).extractLsb' (4 * c.val) 4 := by
  apply BitVec.eq_of_getLsbD_eq
  intro i hi
  have h : 4 * c.val + i < 32 := by omega
  simp [field, lane, fieldAt, h, Nat.add_assoc]

/-- The wide mask of `wf` has the bits 1, 2 and 3 of every nibble. -/
theorem nib_wfMask (k : Fin 64) :
    nib 0xEEEEEEEEEEEEEEEEEEEEEEEEEEEEEEEEEEEEEEEEEEEEEEEEEEEEEEEEEEEEEEEE#256 k = 0xE#4 := by
  revert k; decide +kernel

theorem nib_and (a b : Universe) (k : Fin 64) : nib (a &&& b) k = nib a k &&& nib b k := by
  simp [nib, fieldAt, BitVec.extractLsb'_and]

theorem nib_or (a b : Universe) (k : Fin 64) : nib (a ||| b) k = nib a k ||| nib b k := by
  simp [nib, fieldAt, BitVec.extractLsb'_or]

@[simp] theorem nib_zero (k : Fin 64) : nib 0#256 k = 0#4 := by
  simp [nib, fieldAt]

/-- `WF(v)`: every nibble is 0 or 1 (R11, R15). -/
theorem wf_iff (v : Universe) : wf v = true ↔ ∀ k : Fin 64, nib v k = 0#4 ∨ nib v k = 1#4 := by
  have hn : ∀ x : Nibble, x &&& 0xE#4 = 0#4 ↔ x = 0#4 ∨ x = 1#4 := by decide
  simp only [wf, beq_iff_eq]
  constructor
  · intro h k
    rw [← hn, ← nib_wfMask k, ← nib_and, h, nib_zero]
  · intro h
    apply ext_nib
    intro k
    rw [nib_and, nib_zero, nib_wfMask]
    exact (hn _).2 (h k)

/-- `WF(v)` by row and column. -/
theorem wf_iff_field (v : Universe) : wf v = true ↔ ∀ r c : Fin 8, field v r c = 0#4 ∨ field v r c = 1#4 := by
  rw [wf_iff]
  constructor
  · intro h r c; rw [field_eq_nib]; exact h _
  · intro h k; rw [nib_eq_field]; exact h _ _

/-- Byte `4r + j` holds the even column in its low nibble and the odd column in its high nibble (spec/20_memory.md R29). -/
theorem byte_eq_fields (v : Universe) (r : Fin 8) (j : Fin 4) :
    byte v ⟨4 * r.val + j.val, by omega⟩
      = field v r ⟨2 * j.val + 1, by omega⟩ ++ field v r ⟨2 * j.val, by omega⟩ := by
  apply BitVec.eq_of_getLsbD_eq
  intro i hi
  rw [BitVec.getLsbD_append]
  by_cases h : i < 4
  · have e : 8 * (4 * r.val + j.val) + i = 32 * r.val + 4 * (2 * j.val) + i := by omega
    simp [byte, fieldAt, field, h, hi, e]
  · have h4 : i - 4 < 4 := by omega
    have e : 8 * (4 * r.val + j.val) + i = 32 * r.val + 4 * (2 * j.val + 1) + (i - 4) := by omega
    simp [byte, fieldAt, field, h, hi, h4, e]

/-- The low `m + 1` nibbles as a number: the low `m` and the next one at its weight. -/
theorem toNat_mod_nibbles (v : Universe) (m : Fin 64) :
    v.toNat % 2 ^ (4 * (m.val + 1)) = v.toNat % 2 ^ (4 * m.val) + 2 ^ (4 * m.val) * (nib v m).toNat := by
  rw [Nat.mul_succ, pow_add, Nat.mod_mul]
  simp [nib, fieldAt, BitVec.extractLsb'_toNat, Nat.shiftRight_eq_div_pow]

end Sys2Proof.Laws
end

