-- ==== Sys2Proof/Laws/Assembler.lean ====
section
/-!
SUPPORT. Laws of the text form (spec/30_encoding.md R55): digits, comments and words.
-/

namespace Sys2Proof.Laws

open Sys2Proof.Machine

/-- A printed digit reads back as its nibble and is none of the characters that separate. -/
theorem hexChar_spec : ∀ d : Nibble, hexValue (hexChar d) = some d.toNat ∧
    hexChar d ≠ '_' ∧ hexChar d ≠ '-' ∧ hexChar d ≠ ' ' ∧ hexChar d ≠ '\t' := by
  decide

/-- A line without a dash has no comment. -/
theorem stripComment_of_no_dash (l : List Char) (h : '-' ∉ l) : stripComment l = l := by
  induction l with
  | nil => rfl
  | cons c cs ih =>
    simp only [List.mem_cons, not_or] at h
    rw [stripComment, ih h.2]
    intro _ hc
    exact absurd hc.symm h.1

/-- A comment after a line without a dash is cut off. -/
theorem stripComment_comment (l comment : List Char) (h : '-' ∉ l) : stripComment (l ++ '-' :: '-' :: comment) = l := by
  induction l with
  | nil => rfl
  | cons c cs ih =>
    simp only [List.mem_cons, not_or] at h
    rw [List.cons_append, stripComment, ih h.2]
    intro _ hc
    exact absurd hc.symm h.1

/-- Characters that do not separate continue the word being read. -/
theorem splitWords_word (l : List Char) (h : ∀ c ∈ l, c ≠ ' ' ∧ c ≠ '\t') (word rest : List Char) :
    splitWords word (l ++ rest) = splitWords (word ++ l) rest := by
  induction l generalizing word with
  | nil => simp
  | cons c cs ih =>
    have hc := h c (by simp)
    rw [List.cons_append, splitWords, if_neg (by simp [hc]), ih (fun c hm => h c (by simp [hm]))]
    simp

end Sys2Proof.Laws
end

