-- ==== Sys2Proof/Laws/Codec.lean ====
section
/-!
SUPPORT. Laws of the codec (spec/30_encoding.md R44 to R48) and of valid cell sequences.
-/

namespace Sys2Proof.Laws

open Sys2Proof.Machine

/-- What a valid cell sequence is (R43). -/
theorem validCells_iff (cells : List Nat) :
    validCells cells = true ↔ cells.length = 64 ∧ ∀ a ∈ cells, a = 0 ∨ a = 1 := by
  simp [validCells, Config.cells, Config.rows, Config.cols]

/-- The nibbles of a packed cell sequence (R44). -/
@[simp] theorem nib_packCells (cells : List Nat) (k : Fin 64) :
    nib (packCells cells) k = BitVec.ofNat 4 (cells.getD k.val 0) :=
  nib_pack _ k

/-- The fields of a packed cell sequence are its cells (R44, R71). -/
theorem field_packCells (cells : List Nat) (r c : Fin 8) :
    field (packCells cells) r c = BitVec.ofNat 4 (cellAt cells r c) := by
  rw [field_eq_nib, nib_packCells]; rfl

/-- Every cell of a valid sequence is 0 or 1 (R43). -/
theorem cellAt_of_valid {cells : List Nat} (h : validCells cells = true) (r c : Fin 8) :
    cellAt cells r c = 0 ∨ cellAt cells r c = 1 := by
  obtain ⟨_, hall⟩ := (validCells_iff cells).1 h
  rw [cellAt, List.getD_eq_getElem?_getD]
  cases hk : cells[8 * r.val + c.val]? with
  | none => simp
  | some a => simpa using hall a (List.mem_of_getElem? hk)

@[simp] theorem decodeCells_length (v : Universe) : (decodeCells v).length = 64 := by
  simp [decodeCells]

@[simp] theorem decodeCells_getD (v : Universe) (k : Fin 64) : (decodeCells v).getD k.val 0 = (nib v k).toNat := by
  simp [decodeCells]

/-- `encode` succeeds exactly on valid sequences (R48). -/
theorem encodeCells_of_valid {cells : List Nat} (h : validCells cells = true) : encodeCells cells = .ok (packCells cells) := by
  simp [encodeCells, h]

theorem encodeCells_of_invalid {cells : List Nat} (h : validCells cells = false) :
    encodeCells cells = .error .invalidInput := by
  simp [encodeCells, h]

@[simp] theorem life_length (cells : List Nat) : (life cells).length = 64 := by
  simp [life]

theorem lifeRule_eq (a n : Nat) : lifeRule a n = 0 ∨ lifeRule a n = 1 := by
  unfold lifeRule; split <;> [skip; split] <;> simp

/-- LIFE gives a valid sequence (R72). -/
theorem validCells_life (cells : List Nat) : validCells (life cells) = true := by
  rw [validCells_iff]
  refine ⟨life_length cells, fun a ha => ?_⟩
  simp only [life, List.mem_map] at ha
  obtain ⟨k, _, rfl⟩ := ha
  exact lifeRule_eq _ _

/-- A cell of LIFE (R72). -/
theorem cellAt_life (cells : List Nat) (r c : Fin 8) :
    cellAt (life cells) r c = lifeRule (cellAt cells r c) (liveNeighbours cells r c) := by
  have h := (flatIndex r c).isLt
  have h1 := rowOf_flatIndex r c
  have h2 := colOf_flatIndex r c
  simp only [flatIndex] at h h1 h2
  simp [cellAt, life, h, h1, h2]

end Sys2Proof.Laws
end

