-- ==== Sys2Proof/Laws/State.lean ====
section
/-!
SUPPORT. One lemma per field per update of State and Block, so that no proof unfolds a record update.
-/

namespace Sys2Proof.Laws

open Sys2Proof.Machine

@[simp] theorem reset_block : State.reset.block = Block.reset := rfl
@[simp] theorem reset_pending : State.reset.pending = [] := rfl
@[simp] theorem reset_responses : State.reset.responses = [] := rfl
@[simp] theorem blockReset_u : Block.reset.u = none := rfl
@[simp] theorem blockReset_cause : Block.reset.cause = .noFault := rfl

@[simp] theorem commit_block (s : State) (r : Block × Response) : (s.commit r).block = r.1 := rfl
@[simp] theorem commit_pending (s : State) (r : Block × Response) : (s.commit r).pending = s.pending := rfl
@[simp] theorem commit_responses (s : State) (r : Block × Response) : (s.commit r).responses = s.responses ++ [r.2] := rfl

@[simp] theorem resetEvent_block (s : State) : s.resetEvent.block = Block.reset := rfl
@[simp] theorem resetEvent_pending (s : State) : s.resetEvent.pending = s.pending := rfl
@[simp] theorem resetEvent_responses (s : State) : s.resetEvent.responses = s.responses := rfl

@[simp] theorem present_block (s : State) (ms : List HostMove) : (s.present ms).block = s.block := rfl
@[simp] theorem present_pending (s : State) (ms : List HostMove) : (s.present ms).pending = s.pending ++ ms := rfl
@[simp] theorem present_responses (s : State) (ms : List HostMove) : (s.present ms).responses = s.responses := rfl

@[simp] theorem presentNext_block (s : State) (m : HostMove) : (s.presentNext m).block = s.block := rfl
@[simp] theorem presentNext_pending (s : State) (m : HostMove) : (s.presentNext m).pending = m :: s.pending := rfl
@[simp] theorem presentNext_responses (s : State) (m : HostMove) : (s.presentNext m).responses = s.responses := rfl

@[simp] theorem writeU_u (b : Block) (v : Universe) : (b.writeU v).u = some v := rfl
@[simp] theorem writeU_cause (b : Block) (v : Universe) : (b.writeU v).cause = b.cause := rfl
@[simp] theorem writeU_loaded (b : Block) (v : Universe) : (b.writeU v).loaded = true := rfl

@[simp] theorem respond_block (b : Block) (d : Option Universe) : (respond b d).1 = b := rfl
@[simp] theorem respond_status (b : Block) (d : Option Universe) : (respond b d).2.status = b.status := rfl
@[simp] theorem respond_data (b : Block) (d : Option Universe) : (respond b d).2.data = d := rfl

@[simp] theorem raise_u (f : Fault) (b : Block) : (raise f b).1.u = b.u := rfl
@[simp] theorem raise_cause (f : Fault) (b : Block) : (raise f b).1.cause = f.cause := rfl
@[simp] theorem raise_loaded (f : Fault) (b : Block) : (raise f b).1.loaded = b.loaded := rfl
@[simp] theorem raise_data (f : Fault) (b : Block) : (raise f b).2.data = none := rfl
@[simp] theorem raise_status (f : Fault) (b : Block) : (raise f b).2.status = (raise f b).1.status := rfl

end Sys2Proof.Laws
end

