-- ==== Sys2Proof/Laws/Ops.lean ====
section
/-!
SUPPORT. One lemma per shared operation of Machine/Ops.lean, Flags.lean and Operands.lean that says what it does, and the canonical
form of the byte view.
-/

namespace Sys2Proof.Laws

open Sys2Proof.Machine

theorem faulted_eq_false {b : Block} : b.faulted = false ↔ b.cause = .noFault := by
  simp [Block.faulted]

theorem faulted_eq_true {b : Block} : b.faulted = true ↔ b.cause ≠ .noFault := by
  simp [Block.faulted]

theorem loaded_eq_true {b : Block} : b.loaded = true ↔ ∃ v, b.u = some v := by
  simp [Block.loaded, Option.isSome_iff_exists]

theorem loaded_eq_false {b : Block} : b.loaded = false ↔ b.u = none := by
  simp [Block.loaded]

/-- On a block that is not faulted the guard is its body. -/
theorem unlessFaulted_of_noFault {b : Block} (h : b.cause = .noFault) (body : Block × Response) :
    unlessFaulted b body = body := by
  simp [unlessFaulted, faulted_eq_false.2 h]

/-- On a faulted block the guard responds and changes nothing (R101). -/
theorem unlessFaulted_of_fault {b : Block} (h : b.cause ≠ .noFault) (body : Block × Response) :
    unlessFaulted b body = respond b none := by
  simp [unlessFaulted, faulted_eq_true.2 h]

/-- The only access of R30 reads `U`. -/
@[simp] theorem memRead_access (b : Block) : memRead b accessAddress accessSize = b.u := rfl

/-- The status of a block with no fault: its `LOADED` bit alone (R22). -/
theorem status_noFault {b : Block} (h : b.cause = .noFault) : b.status = if b.loaded then 0b001#3 else 0b000#3 := by
  rw [Block.status, h]
  cases b.loaded <;> rfl

/-- The status after UninitialisedUniverse with nothing loaded (R22). -/
theorem status_uninitialised {b : Block} (h : b.cause = .uninitialisedUniverse) (hu : b.u = none) : b.status = 0b010#3 := by
  rw [Block.status, h, loaded_eq_false.2 hu]; rfl

/-- The status after MalformedUniverse with a universe loaded (R22). -/
theorem status_malformed {b : Block} {v : Universe} (h : b.cause = .malformedUniverse) (hu : b.u = some v) :
    b.status = 0b101#3 := by
  rw [Block.status, h, loaded_eq_true.2 ⟨v, hu⟩]; rfl

/-- The byte view is in its canonical form whatever the block holds, so every operation keeps it (R29). -/
theorem byteView_wf (b : Block) : Memory.wf (byteView b) = true := by
  unfold Memory.wf byteView
  cases b.u with
  | none => rfl
  | some v =>
    simp only [List.map_map, Function.comp_def, Bool.or_eq_true, beq_iff_eq]
    exact Or.inr (by decide)

/-- The bytes of a written universe. -/
theorem byteAt_writeU (b : Block) (v : Universe) (a : Nat) (h : a < 32) : byteAt (b.writeU v) a = some (byte v ⟨a, h⟩) := by
  simp [byteAt, h]

/-- The byte view depends on `U` alone. -/
theorem byteAt_congr {b b' : Block} (h : b.u = b'.u) (a : Nat) : byteAt b a = byteAt b' a := by
  simp [byteAt, h]

/-- A fault entry stores nothing in the byte view (R100). -/
theorem byteAt_raise (f : Fault) (b : Block) (a : Nat) : byteAt (raise f b).1 a = byteAt b a :=
  byteAt_congr (raise_u f b) a

/-- An address above 31 does not exist (R29). -/
theorem byteAt_of_ge (b : Block) {a : Nat} (h : 32 ≤ a) : byteAt b a = none := by
  simp [byteAt, Nat.not_lt.2 h]

theorem takeMove_idle {s : State} (h : s.pending = []) : s.takeMove = .idle s := by
  simp [State.takeMove, h]

theorem takeMove_reset {s : State} {rest : List HostMove} (h : s.pending = .reset :: rest) :
    s.takeMove = .reset { s with pending := rest } := by
  simp [State.takeMove, h]

theorem takeMove_command {s : State} {c : CommandWord} {rest : List HostMove} (h : s.pending = .command c :: rest) :
    s.takeMove = .command c { s with pending := rest } := by
  simp [State.takeMove, h]

end Sys2Proof.Laws
end

