-- ==== Sys2Proof/Laws/PerInstr.lean ====
section
/-!
SUPPORT. Statements made per instruction (LAWS.json, "per_instruction"). The family PortsRoundTrip is about the ports of a command
(spec/30_encoding.md R50, R51): decoding what the encoder presents gives the command back, on its own opcode.
-/

namespace Sys2Proof.Laws

/-- The ports that present `i` carry its code and decode to it. -/
def PortsRoundTrip.Statement (i : Instr) : Prop :=
  decode (encode i) = i ∧ (encode i).cmd = opcodeOf i

theorem PortsRoundTrip.nop : PortsRoundTrip.Statement .nop := ⟨rfl, rfl⟩

theorem PortsRoundTrip.loadu (imm256 : Universe) : PortsRoundTrip.Statement (.loadu imm256) := ⟨rfl, rfl⟩

theorem PortsRoundTrip.step : PortsRoundTrip.Statement .step := ⟨rfl, rfl⟩

theorem PortsRoundTrip.readu : PortsRoundTrip.Statement .readu := ⟨rfl, rfl⟩

end Sys2Proof.Laws
end

