-- ==== Sys2Proof/Laws/Primitives.lean ====
section
/-!
SUPPORT. One law per primitive, field by field (spec/40_vector_primitives.md R59 to R70): what a later proof cites instead of
unfolding it. Row and column arithmetic is that of `Fin 8`, modulo 8.
-/

namespace Sys2Proof.Laws

open Sys2Proof.Machine

theorem val_succ (r : Fin 8) : (r + 1).val = if r.val = 7 then 0 else r.val + 1 := by
  revert r; decide

theorem val_pred (r : Fin 8) : (r - 1).val = if r.val = 0 then 7 else r.val - 1 := by
  revert r; decide

/-- A row rotation moves whole lanes: row `r` of the result is row `r + 1` of the operand (R59). -/
theorem lane_rotRowUp (v : Universe) (r : Fin 8) : lane (rotRowUp v) r = lane v (r + 1) := by
  apply BitVec.eq_of_getLsbD_eq
  intro i hi
  have hr := r.isLt
  simp only [lane, fieldAt, rotRowUp, BitVec.getLsbD_extractLsb', hi, decide_true, Bool.true_and, BitVec.getLsbD_append,
    BitVec.getLsbD_extractLsb, val_succ]
  by_cases h : r.val = 7
  · simp [h, show i < 31 - 0 + 1 by omega]
  · simp [h, show 32 * r.val + i < 255 - 32 + 1 by omega, show 32 + (32 * r.val + i) = 32 * (r.val + 1) + i by omega]

/-- Row `r` of the result is row `r - 1` of the operand (R60). -/
theorem lane_rotRowDn (v : Universe) (r : Fin 8) : lane (rotRowDn v) r = lane v (r - 1) := by
  apply BitVec.eq_of_getLsbD_eq
  intro i hi
  have hr := r.isLt
  simp only [lane, fieldAt, rotRowDn, BitVec.getLsbD_extractLsb', hi, decide_true, Bool.true_and, BitVec.getLsbD_append,
    BitVec.getLsbD_extractLsb, val_pred]
  by_cases h : r.val = 0
  · simp [h, show i < 255 - 224 + 1 by omega]
  · simp [h, show ¬ 32 * r.val + i < 255 - 224 + 1 by omega,
      show 32 * r.val + i - (255 - 224 + 1) = 32 * (r.val - 1) + i by omega, show 32 * (r.val - 1) + i < 223 - 0 + 1 by omega]

/-- Within a lane, column `c` of the left rotation is column `c + 1` (R61). -/
theorem laneField_rotLaneL (l : Lane) (c : Fin 8) :
    (rotLaneL l).extractLsb' (4 * c.val) 4 = l.extractLsb' (4 * (c + 1).val) 4 := by
  apply BitVec.eq_of_getLsbD_eq
  intro i hi
  have hc := c.isLt
  simp only [rotLaneL, BitVec.getLsbD_extractLsb', hi, decide_true, Bool.true_and, BitVec.getLsbD_append,
    BitVec.getLsbD_extractLsb, val_succ]
  by_cases h : c.val = 7
  · simp [h, show i < 3 - 0 + 1 by omega]
  · simp [h, show 4 * c.val + i < 31 - 4 + 1 by omega, show 4 + (4 * c.val + i) = 4 * (c.val + 1) + i by omega]

/-- Within a lane, column `c` of the right rotation is column `c - 1` (R62). -/
theorem laneField_rotLaneR (l : Lane) (c : Fin 8) :
    (rotLaneR l).extractLsb' (4 * c.val) 4 = l.extractLsb' (4 * (c - 1).val) 4 := by
  apply BitVec.eq_of_getLsbD_eq
  intro i hi
  have hc := c.isLt
  simp only [rotLaneR, BitVec.getLsbD_extractLsb', hi, decide_true, Bool.true_and, BitVec.getLsbD_append,
    BitVec.getLsbD_extractLsb, val_pred]
  by_cases h : c.val = 0
  · simp [h, show i < 31 - 28 + 1 by omega]
  · simp [h, show ¬ 4 * c.val + i < 31 - 28 + 1 by omega,
      show 4 * c.val + i - (31 - 28 + 1) = 4 * (c.val - 1) + i by omega, show 4 * (c.val - 1) + i < 27 - 0 + 1 by omega]

/-- `field(ROTROW_UP(v), r, c) = field(v, r + 1, c)` (R59). -/
@[simp] theorem field_rotRowUp (v : Universe) (r c : Fin 8) : field (rotRowUp v) r c = field v (r + 1) c := by
  rw [field_eq_lane, lane_rotRowUp, ← field_eq_lane]

/-- `field(ROTROW_DN(v), r, c) = field(v, r - 1, c)` (R60). -/
@[simp] theorem field_rotRowDn (v : Universe) (r c : Fin 8) : field (rotRowDn v) r c = field v (r - 1) c := by
  rw [field_eq_lane, lane_rotRowDn, ← field_eq_lane]

/-- `field(ROTCOL_L(v), r, c) = field(v, r, c + 1)` (R61). -/
@[simp] theorem field_rotColL (v : Universe) (r c : Fin 8) : field (rotColL v) r c = field v r (c + 1) := by
  rw [field_eq_lane, rotColL, lane_pack, laneField_rotLaneL, ← field_eq_lane]

/-- `field(ROTCOL_R(v), r, c) = field(v, r, c - 1)` (R62). -/
@[simp] theorem field_rotColR (v : Universe) (r c : Fin 8) : field (rotColR v) r c = field v r (c - 1) := by
  rw [field_eq_lane, rotColR, lane_pack, laneField_rotLaneR, ← field_eq_lane]

/-- `nib(ADD4(a, b), k) = (nib(a, k) + nib(b, k)) mod 16` (R64). -/
@[simp] theorem nib_add4 (a b : Universe) (k : Fin 64) : nib (add4 a b) k = nib a k + nib b k :=
  nib_pack _ k

/-- `ADD4` by row and column (R64). -/
@[simp] theorem field_add4 (a b : Universe) (r c : Fin 8) : field (add4 a b) r c = field a r c + field b r c := by
  simp [field_eq_nib]

/-- `OR256` acts on each field alone (R68). -/
@[simp] theorem nib_or256 (a b : Universe) (k : Fin 64) : nib (or256 a b) k = nib a k ||| nib b k :=
  nib_or a b k

/-- `OR256` by row and column (R68). -/
@[simp] theorem field_or256 (a b : Universe) (r c : Fin 8) : field (or256 a b) r c = field a r c ||| field b r c := by
  simp [field_eq_nib]

/-- `EQ3` compares each field with 3 (R69). -/
@[simp] theorem nib_eq3 (v : Universe) (k : Fin 64) : nib (eq3 v) k = if nib v k = 3#4 then 1#4 else 0#4 :=
  nib_pack _ k

/-- `EQ3` by row and column (R69). -/
@[simp] theorem field_eq3 (v : Universe) (r c : Fin 8) :
    field (eq3 v) r c = if field v r c = 3#4 then 1#4 else 0#4 := by
  simp [field_eq_nib]

/-- The lane adder of R66, lane by lane. -/
theorem fieldAt_addLanes {w n : Nat} (hw : w * n ≤ 256) (a b : Universe) (k : Fin n) :
    fieldAt w (addLanes w n a b) k.val = fieldAt w a k.val + fieldAt w b k.val :=
  fieldAt_pack _ hw k

theorem add4_comm (a b : Universe) : add4 a b = add4 b a :=
  ext_nib fun k => by simp [BitVec.add_comm]

theorem add4_assoc (a b c : Universe) : add4 (add4 a b) c = add4 a (add4 b c) :=
  ext_nib fun k => by simp [BitVec.add_assoc]

@[simp] theorem add4_zero (a : Universe) : add4 a 0#256 = a :=
  ext_nib fun k => by simp

@[simp] theorem zero_add4 (a : Universe) : add4 0#256 a = a := by
  rw [add4_comm, add4_zero]

/-- A field of the gathered sum is the sum of the fields (R74). -/
theorem field_gather (vs : List Universe) (r c : Fin 8) : field (gather vs) r c = (vs.map fun v => field v r c).sum := by
  have hfold : ∀ (vs : List Universe) (acc : Universe),
      field (vs.foldl add4 acc) r c = field acc r c + (vs.map fun v => field v r c).sum := by
    intro vs
    induction vs with
    | nil => intro acc; simp
    | cons v vs ih => intro acc; simp [ih, BitVec.add_assoc]
  cases vs with
  | nil => simp [gather, field_eq_nib]
  | cons v vs => simp [gather, hfold]

/-- A field of a grouped sum is the sum of the leaves' fields, whatever the grouping (R74). -/
theorem field_sumTreeValue (t : SumTree) (r c : Fin 8) :
    field (sumTreeValue t) r c = ((sumTreeLeaves t).map fun v => field v r c).sum := by
  induction t with
  | leaf v => simp [sumTreeValue, sumTreeLeaves]
  | node l r ihl ihr => simp [sumTreeValue, sumTreeLeaves, ihl, ihr]

end Sys2Proof.Laws
end

