-- ==== Sys2Proof/Laws/Step.lean ====
section
/-!
SUPPORT. What a command and a step can do, said once: the inversion lemmas every invariant is derived from.
-/

namespace Sys2Proof.Laws

open Sys2Proof.Machine

/-- Every command is a transition of the block that is committed: `exec` always answers a next state (R8, R122). -/
theorem exec_eq_commit (i : Instr) (s : State) : exec i s = .next (s.commit (transact i s.block)) := by
  cases i <;> rfl

/-- A faulted block answers every command alike (R101). -/
theorem transact_of_fault {b : Block} (h : b.cause ≠ .noFault) (i : Instr) : transact i b = respond b none := by
  cases i <;> simp [transact, transNop, transLoadu, transStep, transReadu, unlessFaulted_of_fault h]

theorem transNop_eq (b : Block) : transNop b = respond b none := rfl

theorem transLoadu_of_noFault {b : Block} (h : b.cause = .noFault) (v : Universe) :
    transLoadu v b = respond (b.writeU v) none := by
  rw [transLoadu, unlessFaulted_of_noFault h]

theorem transStep_of_none {b : Block} (h : b.cause = .noFault) (hu : b.u = none) :
    transStep b = raise .uninitialisedUniverse b := by
  rw [transStep, unlessFaulted_of_noFault h, hu]

theorem transStep_of_wf {b : Block} {v : Universe} (h : b.cause = .noFault) (hu : b.u = some v) (hv : wf v = true) :
    transStep b = respond (b.writeU (stepFn v)) none := by
  rw [transStep, unlessFaulted_of_noFault h, hu]
  simp [hv]

theorem transStep_of_malformed {b : Block} {v : Universe} (h : b.cause = .noFault) (hu : b.u = some v)
    (hv : wf v = false) : transStep b = raise .malformedUniverse b := by
  rw [transStep, unlessFaulted_of_noFault h, hu]
  simp [hv]

theorem transReadu_of_none {b : Block} (h : b.cause = .noFault) (hu : b.u = none) :
    transReadu b = raise .uninitialisedUniverse b := by
  rw [transReadu, unlessFaulted_of_noFault h, memRead_access, hu]

theorem transReadu_of_some {b : Block} {v : Universe} (h : b.cause = .noFault) (hu : b.u = some v) :
    transReadu b = respond b (some v) := by
  rw [transReadu, unlessFaulted_of_noFault h, memRead_access, hu]

/-- Everything a command can do to the block: leave it (responding without data, or with `U` for READU), write `U` by LOADU or
STEP, or enter one of the two faults. -/
theorem transact_cases (i : Instr) (b : Block) :
    transact i b = respond b none ∧ (i = .nop ∨ b.cause ≠ .noFault) ∨
    (∃ v, i = .readu ∧ b.cause = .noFault ∧ b.u = some v ∧ transact i b = respond b (some v)) ∨
    (∃ v, i = .loadu v ∧ b.cause = .noFault ∧ transact i b = respond (b.writeU v) none) ∨
    (∃ v, i = .step ∧ b.cause = .noFault ∧ b.u = some v ∧ wf v = true ∧
      transact i b = respond (b.writeU (stepFn v)) none) ∨
    ((i = .step ∨ i = .readu) ∧ b.cause = .noFault ∧ b.u = none ∧ transact i b = raise .uninitialisedUniverse b) ∨
    (∃ v, i = .step ∧ b.cause = .noFault ∧ b.u = some v ∧ wf v = false ∧
      transact i b = raise .malformedUniverse b) := by
  by_cases h : b.cause = .noFault
  · cases i with
    | nop => exact .inl ⟨transNop_eq b, .inl rfl⟩
    | loadu v => exact .inr (.inr (.inl ⟨v, rfl, h, transLoadu_of_noFault h v⟩))
    | step =>
      cases hu : b.u with
      | none => exact .inr (.inr (.inr (.inr (.inl ⟨.inl rfl, h, rfl, transStep_of_none h hu⟩))))
      | some v =>
        cases hv : wf v with
        | true => exact .inr (.inr (.inr (.inl ⟨v, rfl, h, rfl, hv, transStep_of_wf h hu hv⟩)))
        | false => exact .inr (.inr (.inr (.inr (.inr ⟨v, rfl, h, rfl, hv, transStep_of_malformed h hu hv⟩))))
    | readu =>
      cases hu : b.u with
      | none => exact .inr (.inr (.inr (.inr (.inl ⟨.inr rfl, h, rfl, transReadu_of_none h hu⟩))))
      | some v => exact .inr (.inl ⟨v, rfl, h, rfl, transReadu_of_some h hu⟩)
  · exact .inl ⟨transact_of_fault h i, .inr h⟩

/-- Everything a step can do, by the host's next move. -/
theorem step_cases (s : State) :
    (s.pending = [] ∧ step s = .next s) ∨
    (∃ rest, s.pending = .reset :: rest ∧ step s = .next { s with block := Block.reset, pending := rest }) ∨
    (∃ c rest, s.pending = .command c :: rest ∧
      step s = .next (({ s with pending := rest } : State).commit (transact (decode c) s.block))) := by
  unfold step
  match hp : s.pending with
  | [] => rw [takeMove_idle hp]; exact .inl ⟨rfl, rfl⟩
  | .reset :: rest => rw [takeMove_reset hp]; exact .inr (.inl ⟨rest, rfl, rfl⟩)
  | .command c :: rest => rw [takeMove_command hp]; exact .inr (.inr ⟨c, rest, rfl, exec_eq_commit _ _⟩)

/-- An invariant that holds at reset with any moves waiting, and that every step keeps, holds in every reachable state. -/
theorem reachable_of_inv (Inv : State → Prop) (h0 : ∀ moves, Inv (State.reset.present moves))
    (hs : ∀ s t, Inv s → step s = .next t → Inv t) {s : State} (h : Safety.Reachable s) : Inv s := by
  induction h with
  | reset moves => exact h0 moves
  | step s t _ hst ih => exact hs s t ih hst

end Sys2Proof.Laws
end

