-- ==== Sys2Proof/Tests/Slice0.lean ====
section
/-!
SUPPORT. Tests and witnesses. Expected values are the spec's own: spec/95_test_vectors.md (section given beside each test) and the
examples of the rules. A witness shows that the hypotheses of a statement, clause by clause, are met together by a concrete state.
-/

namespace Sys2Proof.Tests

open Sys2Proof.Machine

/-! ## Values and states of spec/95_test_vectors.md -/

/-- The vertical blinker `v1` (section 1.3). -/
def v1 : Universe := 0x00000000_00000000_00000000_00001000_00001000_00001000_00000000_00000000#256

/-- The horizontal blinker `h1` (section 1.3). -/
def h1 : Universe := 0x00000000_00000000_00000000_00000000_00011100_00000000_00000000_00000000#256

/-- `bad`: `v1` with nibble (0,0) set to 2 (section 2.7). -/
def bad : Universe := 0x00000000_00000000_00000000_00001000_00001000_00001000_00000000_00000002#256

/-- The value `T` of spec/40_vector_primitives.md. -/
def valueT : Universe := 0x00000003_00000000_00000000_00000000_00000000_00000000_FEDCBA98_76543210#256

/-- The pseudo-random universe of section 2.5. -/
def rnd : Universe := 0x00111001_00001100_00001111_00001000_00000111_10110000_10011100_01000000#256

/-- A machine with a given block and nothing in hand. -/
def machine (u : Option Universe) (cause : Cause) : State :=
  { block := { u := u, cause := cause }, pending := [], responses := [] }

/-- A machine with a given block and one command in hand. -/
def machineWith (u : Option Universe) (cause : Cause) (cmd : Opcode) (wdata : Universe) : State :=
  { block := { u := u, cause := cause }, pending := [.command { cmd := cmd, wdata := wdata }], responses := [] }

/-- The block and the responses an outcome leaves, for comparison. -/
def seen (o : Host.Outcome State Fault Refusal) : Option (Block × List Response) :=
  match o with
  | .next t => some (t.block, t.responses)
  | .fault _ => none
  | .refused _ => none

/-! ## Well-formedness of syntax: an ill-formed term for each check -/

theorem test_validCells_refuses_63 : validCells (List.replicate 63 0) = false := by decide
theorem test_validCells_refuses_65 : validCells (List.replicate 65 0) = false := by decide
theorem test_validCells_refuses_two : validCells ((List.replicate 64 0).set 10 2) = false := by decide
theorem test_loadCells_ill_formed : (Pseudo.loadCells [0, 1]).wellFormed = false := by decide
theorem test_sourceLine_ill_formed : (SourceLine.pseudo (.loadCells [])).wellFormed = false := by decide
theorem test_validCells_accepts : validCells (List.replicate 64 1) = true := by decide

/-- The products of spec/00_scope.md R6. -/
theorem test_parameters : Config.cells = 64 ∧ Config.laneWidth = 32 ∧ Config.universeWidth = 256 ∧
    Config.neighbours < 2 ^ Config.fieldWidth ∧ mooreOffsets.length = Config.neighbours := by decide

/-! ## Decoding: words written from spec/30_encoding.md R50 -/

theorem test_decode_nop : decode { cmd := 0b00#2, wdata := 0xFF#256 } = .nop := by decide
theorem test_decode_loadu : decode { cmd := 0b01#2, wdata := v1 } = .loadu v1 := by decide
theorem test_decode_step : decode { cmd := 0b10#2, wdata := 0xFF#256 } = .step := by decide
theorem test_decode_readu : decode { cmd := 0b11#2, wdata := 0xFF#256 } = .readu := by decide
theorem test_encode_loadu : encode (.loadu h1) = { cmd := 0b01#2, wdata := h1 } := by decide

/-- Each row of the opcode table, fetched right after reset, is the instruction the next step runs (log entry 5). -/
theorem test_table_words_run :
    [0, 1, 2, 3].map (fun w => seen (step (State.reset.withFetchWord 8 w))) =
      [some ({ u := none, cause := .noFault }, [{ status := 0b000#3, data := none }]),
        some ({ u := some 0#256, cause := .noFault }, [{ status := 0b001#3, data := none }]),
        some ({ u := none, cause := .uninitialisedUniverse }, [{ status := 0b010#3, data := none }]),
        some ({ u := none, cause := .uninitialisedUniverse }, [{ status := 0b010#3, data := none }])] := by
  decide +kernel

/-! ## The commands (section 2.7), at most two tests each -/

theorem test_nop_after_reset :
    seen (exec .nop State.reset) = some ({ u := none, cause := .noFault }, [{ status := 0b000#3, data := none }]) := by
  decide +kernel

theorem test_nop_faulted :
    seen (exec .nop (machine (some bad) .malformedUniverse)) =
      some ({ u := some bad, cause := .malformedUniverse }, [{ status := 0b101#3, data := none }]) := by
  decide +kernel

theorem test_loadu_malformed_is_stored :
    seen (exec (.loadu bad) (machine (some v1) .noFault)) =
      some ({ u := some bad, cause := .noFault }, [{ status := 0b001#3, data := none }]) := by
  decide +kernel

theorem test_loadu_faulted_is_ignored :
    seen (exec (.loadu v1) (machine none .uninitialisedUniverse)) =
      some ({ u := none, cause := .uninitialisedUniverse }, [{ status := 0b010#3, data := none }]) := by
  decide +kernel

theorem test_step_blinker :
    seen (exec .step (machine (some v1) .noFault)) =
      some ({ u := some h1, cause := .noFault }, [{ status := 0b001#3, data := none }]) := by
  decide +kernel

theorem test_step_malformed :
    seen (exec .step (machine (some bad) .noFault)) =
      some ({ u := some bad, cause := .malformedUniverse }, [{ status := 0b101#3, data := none }]) := by
  decide +kernel

theorem test_readu_returns_malformed :
    seen (exec .readu (machine (some bad) .noFault)) =
      some ({ u := some bad, cause := .noFault }, [{ status := 0b001#3, data := some bad }]) := by
  decide +kernel

theorem test_readu_faulted_has_no_data :
    seen (exec .readu (machine (some bad) .malformedUniverse)) =
      some ({ u := some bad, cause := .malformedUniverse }, [{ status := 0b101#3, data := none }]) := by
  decide +kernel

theorem test_reset_event :
    step { block := { u := some bad, cause := .malformedUniverse }, pending := [.reset], responses := [] } =
      .next State.reset := rfl

/-! ## Primitives (sections 2.1 to 2.4) -/

theorem test_rotRowUp :
    rotRowUp valueT = 0x76543210_00000003_00000000_00000000_00000000_00000000_00000000_FEDCBA98#256 := by
  decide +kernel

theorem test_rotRowDn :
    rotRowDn valueT = 0x00000000_00000000_00000000_00000000_00000000_FEDCBA98_76543210_00000003#256 := by
  decide +kernel

theorem test_rotColL :
    rotColL valueT = 0x30000000_00000000_00000000_00000000_00000000_00000000_8FEDCBA9_07654321#256 := by
  decide +kernel

theorem test_rotColR :
    rotColR valueT = 0x00000030_00000000_00000000_00000000_00000000_00000000_EDCBA98F_65432107#256 := by
  decide +kernel

/-- The detector of section 2.2: column 0 of row 1 goes to column 7 of row 1, not of row 0. -/
theorem test_rotColL_stays_in_its_row :
    rotColL 0x00000000_00000000_00000000_00000000_00000000_00000000_00000001_00000000#256 =
      0x00000000_00000000_00000000_00000000_00000000_00000000_10000000_00000000#256 := by
  decide +kernel

theorem test_add4_wraps_in_the_field : add4 0x0000000F_00000008_11111111#256 0x00000001_00000008_01010101#256 = 0x12121212#256 := by
  decide +kernel

theorem test_add4_column_7 : add4 0x00000000_F0000000_0000000F#256 0x00000000_10000000_0000000F#256 = 0x0000000E#256 := by
  decide +kernel

theorem test_or256_self_bit : or256 0x8432#256 0x1011#256 = 0x9433#256 := by
  decide

theorem test_eq3_equality_of_four_bits : eq3 0xFEDCBA98_76543210#256 = 0x00000000_00001000#256 := by
  decide +kernel

/-- The smallest malformed values and the largest well-formed single cell (section 2.7). -/
theorem test_wf_boundaries :
    [2#256, 4#256, 8#256, 1#256 <<< 255, 1#256 <<< 252].map wf = [false, false, false, false, true] := by
  decide

/-- Bytes 0 to 3 of the example of R44 and the byte of cell (2, 5) (section 2.1). -/
theorem test_bytes :
    [0, 1, 2, 3].map (fun a => byte 0x10001101#256 a) = [0x01#8, 0x11#8, 0x00#8, 0x10#8] ∧
    byte 0x00100000_00000000_00000000#256 10 = 0x10#8 := by
  decide

theorem test_ofGroups : ofGroups 3 0 0 0 0 0 0xFEDCBA98 0x76543210 = valueT := by
  decide +kernel

/-! ## The step function (sections 1.4, 1.5, 2.5) -/

theorem test_count_random :
    count rnd = 0x22233320_21255553_10034531_20023664_22233222_23235444_24433112_32455322#256 := by
  decide +kernel

theorem test_merged_random :
    merged rnd = 0x22333321_21255553_10035531_20023664_22233333_33335444_34433112_33455322#256 := by
  decide +kernel

theorem test_stepFn_random :
    stepFn rnd = 0x00111100_00000001_00010010_00001000_00011111_11110000_10011000_11000100#256 := by
  decide +kernel

theorem test_count_full :
    count 0x11111111_11111111_11111111_11111111_11111111_11111111_11111111_11111111#256 =
      0x88888888_88888888_88888888_88888888_88888888_88888888_88888888_88888888#256 := by
  decide +kernel

/-- The single cell (0, 0) seen across both edges (section 1.5, instance 3). -/
theorem test_count_wraps :
    count 1#256 = 0x10000011_00000000_00000000_00000000_00000000_00000000_10000011_10000010#256 := by
  decide +kernel

/-- The loaf of section 1.2 is a fixed point. -/
theorem test_stepFn_loaf :
    stepFn 0x00000000_00000000_00010000_00101000_00100100_00011000_00000000_00000000#256 =
      0x00000000_00000000_00010000_00101000_00100100_00011000_00000000_00000000#256 := by
  decide +kernel

/-- The inputs of section 1.4: the neighbours of (3, 3) switched on one by one, the cell itself dead. -/
def around : List Universe :=
  [0, 0x00001000_00000000_00000000, 0x00011000_00000000_00000000, 0x00010000_00011000_00000000_00000000,
    0x00010000_00010000_00011000_00000000_00000000, 0x00011000_00010000_00011000_00000000_00000000,
    0x00011100_00010000_00011000_00000000_00000000, 0x00011100_00010100_00011000_00000000_00000000,
    0x00011100_00010100_00011100_00000000_00000000]

/-- The 18 cases of section 1.4, without and with the cell itself. -/
theorem test_neighbour_count_boundary :
    (around.map fun u => cell (stepFn u) 3 3) = [0, 0, 0, 1, 0, 0, 0, 0, 0] ∧
    (around.map fun u => cell (stepFn (u ||| 0x00001000_00000000_00000000_00000000)) 3 3) = [0, 0, 1, 1, 0, 0, 0, 0, 0] := by
  decide +kernel

/-- The reference on the same random universe (section 2.5). -/
theorem test_life_random : packCells (life (decodeCells rnd)) =
    0x00111100_00000001_00010010_00001000_00011111_11110000_10011000_11000100#256 := by
  decide +kernel

/-! ## The host side (sections 1.1, 2.1, R55, R56) -/

/-- The codec instance of section 1.1, row 0 `1 0 1 0 0 0 1 0`. -/
theorem test_encode_grid :
    packCells ([1,0,1,0,0,0,1,0] ++ [0,0,0,1,1,0,0,0] ++ [1,0,0,0,0,1,0,0] ++ [0,0,1,1,0,0,1,0] ++
      [0,0,1,0,0,0,0,1] ++ [1,1,1,1,1,1,0,0] ++ [0,0,1,1,1,1,1,0] ++ [0,1,0,1,0,1,1,0]) =
      0x01101010_01111100_00111111_10000100_01001100_00100001_00011000_01000101#256 := by
  decide +kernel

/-- A malformed value decodes to its nibbles' numbers (section 2.1). -/
theorem test_decode_malformed : (decodeCells 0x200_00000001#256).take 11 = [1, 0, 0, 0, 0, 0, 0, 0, 0, 0, 2] := by
  decide

theorem test_encode_refuses_63 : (encodeCells (List.replicate 63 0)).toOption = none := by
  decide

theorem test_expand_stepN : (expandPseudo (.stepN 2)).toOption =
    some [.command { cmd := 0b10#2, wdata := 0#256 }, .command { cmd := 0b10#2, wdata := 0#256 }] := by
  decide

/-- The LOADU line of program P1, comment and grouping included. -/
theorem test_parse_loadu :
    (parseLine ("LOADU  00000000_00000000_00000000_00001000_00001000_00001000_00000000_00000000 -- v1".toList)).toOption =
      some (some (.instr (.loadu v1))) := by
  decide +kernel

theorem test_parse_text : (parseText ("RESET\nNOP -- idle\n\nSTEPN 28\nREADCELLS".toList)).toOption =
    some [.pseudo .reset, .instr .nop, .pseudo (.stepN 28), .pseudo .readCells] := by
  decide +kernel

theorem test_parse_refuses_short_hex : (parseLine ("LOADU 1234".toList)).toOption = none := by
  decide +kernel

theorem test_render_row : renderRow [1, 0, 1, 1, 0, 0, 0, 1] 0 = "1 0 1 1 0 0 0 1".toList := by
  decide +kernel

/-! ## Witnesses: the hypotheses of the statements are met together -/

/-- `DecodeAndEncodeAgree`: a well-formed command, a length at its bound, LOADU's code. -/
theorem witness_decode_and_encode :
    (Instr.loadu bad).wellFormed = true ∧ 258 ≤ 258 ∧ (CommandWord.mk 0b01#2 bad).cmd = 0b01#2 := by decide

/-- `StepRunsTheDecodedCommand`. -/
theorem witness_command_in_hand :
    (machineWith (some v1) .noFault 0b10#2 bad).pending = .command { cmd := 0b10#2, wdata := bad } :: [] := by decide

/-- `ResetEventResetsTheBlock`. -/
theorem witness_reset_in_hand :
    ({ machine (some bad) .malformedUniverse with pending := [.reset] } : State).pending = .reset :: [] := by decide

/-- `EveryCommandCompletes`: a faulted block with the reset event in hand, and a command with the reset event behind it. -/
theorem witness_move_in_hand :
    ({ machine (some bad) .malformedUniverse with pending := [.reset] } : State).pending = .reset :: [] ∧
    ({ machine (some bad) .malformedUniverse with pending := [.command (encode .step), .reset] } : State).pending =
      .command (encode .step) :: [.reset] := by decide

/-- `IdleStepChangesNothing`. -/
theorem witness_idle : (machine (some v1) .noFault).pending = [] := by decide

/-- `LoaduStoresAnyValue`: the unfaulted clause from reset; the faulted clause in both faults; the reload clause; a
malformed value loaded from reset, the top bit alone. -/
theorem witness_loadu_unfaulted : State.reset.block.cause = .noFault := by decide
theorem witness_loadu_faulted :
    (machine none .uninitialisedUniverse).block.cause ≠ .noFault ∧
    (machine (some bad) .malformedUniverse).block.cause ≠ .noFault := by decide
theorem witness_loadu_reload :
    (machine (some bad) .malformedUniverse).block.u = some bad ∧
    exec (.loadu bad) (machine (some bad) .malformedUniverse) =
      .next ((machine (some bad) .malformedUniverse).commit (transLoadu bad (machine (some bad) .malformedUniverse).block)) :=
  ⟨rfl, rfl⟩
theorem witness_loadu_malformed :
    State.reset.block.cause = .noFault ∧ wf (1#256 <<< 255) = false ∧
    exec (.loadu (1#256 <<< 255)) State.reset =
      .next (State.reset.commit (transLoadu (1#256 <<< 255) State.reset.block)) :=
  ⟨rfl, by decide, rfl⟩

/-- `StepAdvancesOneGeneration`: the well-formed value with its top cell alive, the malformed value with its top bit alone, none. -/
theorem witness_step_well_formed :
    (machine (some (1#256 <<< 252)) .noFault).block.cause = .noFault ∧
    (machine (some (1#256 <<< 252)) .noFault).block.u = some (1#256 <<< 252) ∧ wf (1#256 <<< 252) = true := by decide
theorem witness_step_malformed :
    (machine (some (1#256 <<< 255)) .noFault).block.cause = .noFault ∧
    (machine (some (1#256 <<< 255)) .noFault).block.u = some (1#256 <<< 255) ∧ wf (1#256 <<< 255) = false := by decide
theorem witness_step_none : State.reset.block.cause = .noFault ∧ State.reset.block.u = none := by decide
theorem witness_step_faulted : (machine (some v1) .malformedUniverse).block.cause ≠ .noFault := by decide

/-- `ReaduReturnsTheUniverse`. -/
theorem witness_readu_loaded :
    (machine (some bad) .noFault).block.cause = .noFault ∧ (machine (some bad) .noFault).block.u = some bad := by decide
theorem witness_readu_none : State.reset.block.cause = .noFault ∧ State.reset.block.u = none := by decide
theorem witness_readu_faulted : (machine none .uninitialisedUniverse).block.cause ≠ .noFault := by decide

/-- `NopAndReaduFrame`: NOP, and READU entering its fault. -/
theorem witness_nop_frame : (Instr.nop = .nop ∨ Instr.nop = .readu) ∧
    exec .nop (machine (some bad) .noFault) = .next ((machine (some bad) .noFault).commit (transNop ⟨some bad, .noFault⟩)) :=
  ⟨.inl rfl, rfl⟩
theorem witness_readu_frame : (Instr.readu = .nop ∨ Instr.readu = .readu) ∧
    exec .readu State.reset = .next (State.reset.commit (raise .uninitialisedUniverse Block.reset)) := ⟨.inr rfl, rfl⟩

/-- `LoaduAndStepFrame`: an address outside the stored bytes at its bound; a step that changes CAUSE. -/
theorem witness_loadu_frame :
    exec (.loadu v1) (machine (some bad) .noFault) =
      .next ((machine (some bad) .noFault).commit (respond ⟨some v1, .noFault⟩ none)) ∧
    accessAddress + accessSize ≤ 32 ∧ (machine (some bad) .noFault).block.loaded = true := ⟨rfl, by decide, rfl⟩
theorem witness_step_frame :
    exec .step State.reset = .next (State.reset.commit (raise .uninitialisedUniverse Block.reset)) ∧
    (State.reset.commit (raise .uninitialisedUniverse Block.reset)).block.cause ≠ State.reset.block.cause :=
  ⟨rfl, by decide⟩

/-- `LoaduAndStepFrame`: where nothing is stored, a faulted block under both commands, and STEP on a malformed universe. -/
theorem witness_loadu_stores_nothing :
    exec (.loadu v1) (machine (some bad) .malformedUniverse) =
      .next ((machine (some bad) .malformedUniverse).commit (respond ⟨some bad, .malformedUniverse⟩ none)) ∧
    (machine (some bad) .malformedUniverse).block.cause ≠ .noFault := ⟨rfl, by decide⟩
theorem witness_step_stores_nothing :
    exec .step (machine (some bad) .malformedUniverse) =
      .next ((machine (some bad) .malformedUniverse).commit (respond ⟨some bad, .malformedUniverse⟩ none)) ∧
    (machine (some bad) .malformedUniverse).block.cause ≠ .noFault := ⟨rfl, by decide⟩
theorem witness_step_on_malformed :
    exec .step (machine (some (1#256 <<< 255)) .noFault) =
      .next ((machine (some (1#256 <<< 255)) .noFault).commit (transStep ⟨some (1#256 <<< 255), .noFault⟩)) ∧
    (∀ p, (machine (some (1#256 <<< 255)) .noFault).block.u = some p → wf p = false) :=
  ⟨rfl, fun p h => by cases h; decide⟩

/-- `WhatWritesTheUniverse`, `OnlyResetClears`: a LOADU in hand on a loaded block that `U` then differs. -/
theorem witness_universe_written :
    step (machineWith (some v1) .noFault 0b01#2 bad) =
      .next ((machine (some v1) .noFault).commit (respond ⟨some bad, .noFault⟩ none)) ∧
    ((machine (some v1) .noFault).commit (respond ⟨some bad, .noFault⟩ none)).block.u ≠
      (machineWith (some v1) .noFault 0b01#2 bad).block.u := ⟨rfl, by decide⟩
theorem witness_no_reset_in_hand :
    (∀ rest, (machineWith (some bad) .malformedUniverse 0b00#2 0).pending ≠ .reset :: rest) ∧
    (machineWith (some bad) .malformedUniverse 0b00#2 0).block.cause ≠ .noFault ∧
    (machineWith (some bad) .malformedUniverse 0b00#2 0).block.loaded = true ∧
    step (machineWith (some bad) .malformedUniverse 0b00#2 0) =
      .next ((machine (some bad) .malformedUniverse).commit (respond ⟨some bad, .malformedUniverse⟩ none)) :=
  ⟨fun _ h => (by cases h), by decide, rfl, rfl⟩

/-- `OneResponsePerCommand`: a READU with data, and a command without. -/
theorem witness_response_with_data :
    exec .readu (machine (some v1) .noFault) = .next ((machine (some v1) .noFault).commit (respond ⟨some v1, .noFault⟩ (some v1))) ∧
    (Instr.readu = .readu ∧ ((machine (some v1) .noFault).commit (respond ⟨some v1, .noFault⟩ (some v1))).block.cause = .noFault) :=
  ⟨rfl, rfl, rfl⟩
theorem witness_response_without_data :
    exec .nop State.reset = .next (State.reset.commit (respond Block.reset none)) ∧
    ¬ (Instr.nop = .readu ∧ (State.reset.commit (respond Block.reset none)).block.cause = .noFault) := ⟨rfl, by decide⟩

/-- `ReadTwiceAndLoadTwice`, `MemoryPrimitivesAtFullWidth`: a loaded block without a fault; a pair next to (0, 32). -/
theorem witness_read_twice : (Block.mk (some bad) .noFault).cause = .noFault ∧ (Block.mk (some bad) .noFault).u = some bad := by
  decide
theorem witness_other_access : ((0, 31) : Nat × Nat) ≠ (0, 32) ∧ ((1, 32) : Nat × Nat) ≠ (0, 32) ∧ Block.reset.cause = .noFault := by
  decide

/-- `UninitialisedFaultExactly`, `MalformedFaultExactly`, `FaultEntryWritesCauseOnly`. -/
theorem witness_uninitialised_fault :
    exec .readu State.reset = .next (State.reset.commit (raise .uninitialisedUniverse Block.reset)) ∧
    State.reset.block.cause = .noFault ∧ (raise .uninitialisedUniverse Block.reset).1.cause = .uninitialisedUniverse := ⟨rfl, rfl, rfl⟩
theorem witness_malformed_fault :
    (∃ t, exec .step (machine (some 2#256) .noFault) = .next t ∧ t.block.cause = .malformedUniverse) ∧
    (machine (some 2#256) .noFault).block.cause = .noFault ∧ 2 ≤ (nib 2#256 0).toNat :=
  ⟨⟨(machine (some 2#256) .noFault).commit (transStep ⟨some 2#256, .noFault⟩), rfl, by decide +kernel⟩, rfl, by decide⟩

/-- `FaultedBlockAbsorbs`. -/
theorem witness_faulted_block :
    (machine (some bad) .malformedUniverse).block.cause ≠ .noFault ∧ (Block.mk none .uninitialisedUniverse).cause ≠ .noFault := by
  decide

/-- `ResetForgetsTheUniverse`: commands none of which is a LOADU, and a response. -/
theorem witness_reset_forgets :
    (∀ c ∈ [CommandWord.mk 0b00#2 0, CommandWord.mk 0b11#2 0], c.cmd ≠ 0b01#2) ∧
    (⟨0b000#3, none⟩ : Response) ∈
      (runMoves (.reset :: [CommandWord.mk 0b00#2 0, CommandWord.mk 0b11#2 0].map .command) ⟨some v1, .noFault⟩).2 := by
  decide +kernel

/-- `StepKeepsTheInvariant`: a state no run reaches as it stands, with a malformed universe about to fault. -/
theorem witness_invariant :
    Safety.inv (machineWith (some bad) .noFault 0b10#2 0) = true ∧
    (∃ t, step (machineWith (some bad) .noFault 0b10#2 0) = .next t ∧ t.block.cause = .malformedUniverse) :=
  ⟨by decide +kernel, (machine (some bad) .noFault).commit (transStep ⟨some bad, .noFault⟩), rfl, by decide +kernel⟩

/-- `WellFormednessIsKept`: a loaded block with a STEP in hand. -/
theorem witness_well_formed_kept :
    Safety.universeWf (machineWith (some v1) .noFault 0b10#2 0).block = true ∧
    (∀ m rest, (machineWith (some v1) .noFault 0b10#2 0).pending = m :: rest → Safety.moveWf m = true) ∧
    (∃ t, step (machineWith (some v1) .noFault 0b10#2 0) = .next t) ∧
    (machineWith (some v1) .noFault 0b10#2 0).block.cause = .noFault ∧
    (machineWith (some v1) .noFault 0b10#2 0).block.loaded = true ∧
    (∀ rest, (machineWith (some v1) .noFault 0b10#2 0).pending ≠ .reset :: rest) :=
  ⟨by decide +kernel, fun _ _ h => (by cases h; rfl), ⟨_, rfl⟩, rfl, rfl, fun _ h => by cases h⟩

/-- `ReachableStatusValues`: a reachable state, and a value of the list. -/
theorem witness_reachable : Safety.Reachable (State.reset.present []) ∧ 0b101#3 ∈ Safety.statusValues :=
  ⟨.reset [], by decide⟩

/-- `ByteViewOfTheUniverse`: the well-formed value whose last byte is 0x11. -/
theorem witness_bytes_well_formed : wf (0x11#256 <<< 248) = true := by decide

/-- `MachinePerformsTheRun`. -/
theorem witness_run :
    ({ machine none .noFault with pending := [.reset, .command ⟨0b00#2, 0⟩] } : State).pending =
      [.reset] ++ [.command ⟨0b00#2, 0⟩] := by decide

/-- `SequentialComposition`: moves in two parts; a LOADU, and a STEP on what an earlier LOADU left, then a NOP and a READU. -/
theorem witness_two_parts :
    ({ machine none .noFault with pending := [.reset, commandMove .nop] } : State).pending =
      [.reset] ++ [commandMove .nop] ++ [] := by decide
theorem witness_read_after_load :
    ({ machine (some bad) .malformedUniverse with
      pending := [.reset, commandMove (.loadu bad), commandMove .nop, commandMove .readu] } : State).pending =
      [.reset] ++ [commandMove (.loadu bad)] ++ [encode .nop].map .command ++ [commandMove .readu] ++ [] ∧
    (runMoves [.reset] ⟨some bad, .malformedUniverse⟩).1.cause = .noFault ∧
    ∀ c ∈ [encode .nop], decode c = .nop ∨ decode c = .readu := by decide
theorem witness_read_after_step :
    ({ machine none .noFault with
      pending := [commandMove (.loadu v1), commandMove .step, commandMove .readu, commandMove .readu] } : State).pending =
      [commandMove (.loadu v1)] ++ [commandMove .step] ++ [encode .readu].map .command ++ [commandMove .readu] ++ [] ∧
    (runMoves [commandMove (.loadu v1)] ⟨none, .noFault⟩).1 = ⟨some v1, .noFault⟩ ∧ wf v1 = true ∧
    ∀ c ∈ [encode .readu], decode c = .nop ∨ decode c = .readu := by decide

/-- `GenerationLaw`, `HostSeesLife`: an unfaulted block, a well-formed value, a valid and an invalid sequence. -/
theorem witness_generation : Block.reset.cause = .noFault ∧ wf v1 = true := by decide
theorem witness_host_sees_life :
    Block.reset.cause = .noFault ∧ validCells (List.replicate 64 1) = true ∧ validCells (List.replicate 63 1) = false := by decide

/-- `RotationLaws`, `TranslationSymmetry`: a member of each list, and a well-formed value on the edge. -/
theorem witness_rotations :
    rotRowDn ∈ [rotRowUp, rotRowDn] ∧ rotColR ∈ [rotColL, rotColR] ∧ rotColR ∈ [rotRowUp, rotRowDn, rotColL, rotColR] ∧
    wf (1#256 <<< 252) = true := by
  refine ⟨by simp, by simp, by simp, by decide⟩

/-- `NoCarryBound`: fifteen full universes. -/
theorem witness_no_carry :
    (List.replicate 15 (0x1111111111111111111111111111111111111111111111111111111111111111#256)).length ≤ 15 ∧
    ∀ v ∈ List.replicate 15 (0x1111111111111111111111111111111111111111111111111111111111111111#256), wf v = true := by
  refine ⟨by decide, fun v hv => ?_⟩
  rw [List.eq_of_mem_replicate hv]; decide

/-- `AdderWidthUnobservable`: every field sum 15, the largest without a carry. -/
theorem witness_field_sums_15 :
    ∀ k : Fin 64, (nib 0x8888888888888888888888888888888888888888888888888888888888888888#256 k).toNat +
      (nib 0x7777777777777777777777777777777777777777777777777777777777777777#256 k).toNat < 16 := by
  decide +kernel

/-- `Or256SetsTheLowestBit`, `Eq3ComparesFieldsWith3`: each clause's field. -/
theorem witness_field_values :
    nib 1#256 63 = 0#4 ∧ nib (1#256 <<< 252) 63 = 1#4 ∧ nib (3#256 <<< 252) 63 = 3#4 ∧ nib (7#256 <<< 252) 63 ≠ 3#4 := by decide

/-- `ViewsShowNeighbours`: a well-formed operand and a view of it. -/
theorem witness_views : wf (1#256 <<< 252) = true ∧ rotRowUp (1#256 <<< 252) ∈ views (1#256 <<< 252) := by
  refine ⟨by decide, by simp [views, viewsWith]⟩

/-- A balanced grouping of eight summands. -/
def balanced (a b c d e f g h : Universe) : SumTree :=
  .node (.node (.node (.leaf a) (.leaf b)) (.node (.leaf c) (.leaf d)))
    (.node (.node (.leaf e) (.leaf f)) (.node (.leaf g) (.leaf h)))

/-- `OrderOfSummandsImmaterial`: a balanced tree of the views, the same beside an all-zero leaf. -/
theorem witness_sum_tree (vS vN vE vW vSE vSW vNE vNW : Universe) (h : views v1 = [vS, vN, vE, vW, vSE, vSW, vNE, vNW]) :
    (sumTreeLeaves (balanced vS vN vE vW vSE vSW vNE vNW)).Perm (views v1) ∧
    (sumTreeLeaves (.node (.leaf 0#256) (balanced vS vN vE vW vSE vSW vNE vNW))).Perm (0#256 :: views v1) := by
  rw [h]; exact ⟨.refl _, .refl _⟩

/-- `OrderOfSummandsImmaterial`: the views reversed, and cut in two. -/
theorem witness_order : (views v1).reverse.Perm (views v1) ∧ ((views v1).take 4 ++ (views v1).drop 4).Perm (views v1) :=
  ⟨List.reverse_perm _, .of_eq (List.take_append_drop 4 _)⟩

/-- `CountIsLiveNeighbours`, `DirectionNamesImmaterial`, `MergeSetsTheSelfBit`, `StepFnComputesLife`, the codec statements. -/
theorem witness_valid_cells : validCells (decodeCells v1) = true ∧ validCells [] = false := by decide
theorem witness_merge : wf v1 = true ∧ field v1 0 0 = 0#4 ∧ field v1 3 3 = 1#4 := by decide
theorem witness_encoded : encodeCells (decodeCells v1) = .ok (packCells (decodeCells v1)) := rfl
theorem witness_wf_value : wf v1 = true := by decide

/-- `BlocksAreIndependent`: two places, two systems that agree on the first, schedules that give it the same number of steps. -/
theorem witness_blocks : (0 : Nat) ≠ 1 ∧
    ([machine (some v1) .noFault, State.reset] : List State)[0]? = ([machine (some v1) .noFault] : List State)[0]? ∧
    [0, 1, 0].count 0 = [0, 0].count 0 := by decide

/-- `IgnoredOperandHasNoEffect`. -/
theorem witness_ignored_operand : (0b10#2 : Opcode) ≠ 0b01#2 ∧
    (machineWith (some v1) .noFault 0b10#2 0).block = (machineWith (some v1) .noFault 0b10#2 bad).block ∧
    (machineWith (some v1) .noFault 0b10#2 0).responses = (machineWith (some v1) .noFault 0b10#2 bad).responses ∧
    (machineWith (some v1) .noFault 0b10#2 0).pending = .command { cmd := 0b10#2, wdata := 0 } :: [] ∧
    (machineWith (some v1) .noFault 0b10#2 bad).pending = .command { cmd := 0b10#2, wdata := bad } :: [] := by decide

end Sys2Proof.Tests
end

section
/-!
PROOFS. The reset values of the block (spec/10_state.md R26), and the fault of the two commands that read `U` while it holds no
value (spec/60_exceptions.md R97).
-/

namespace Sys2Proof.Proofs

open Sys2Proof.Machine Sys2Proof.Laws

/-- On an unfaulted block that holds no universe, a command that reads `U` is the fault entry of R100, committed (R97). -/
theorem exec_of_not_loaded {i : Instr} {s : State} (hi : i = .step ∨ i = .readu) (hc : s.block.cause = .noFault)
    (hu : s.block.u = none) : exec i s = .next (s.commit (raise .uninitialisedUniverse s.block)) := by
  rw [exec_eq_commit]
  obtain rfl | rfl := hi
  · rw [transact, transStep_of_none hc hu]
  · rw [transact, transReadu_of_none hc hu]

/-- Right after reset a command that reads `U` faults, and no response shows data: the record is empty, and fault entry answers
without data (R26, R100). -/
theorem exec_reset_faults_without_data {i : Instr} (hi : i = .step ∨ i = .readu) :
    ∃ t, exec i State.reset = .next t ∧ t.block.cause = .uninitialisedUniverse ∧ ∀ r ∈ t.responses, r.data = none :=
  ⟨_, exec_of_not_loaded hi blockReset_cause blockReset_u, rfl, by simp⟩

/-- Settles O25: the fields of the reset block give the four values, and both reading commands enter the fault of an empty `U`. -/
theorem resetValues : Obligations.ResetValues := by
  have hloaded : Block.reset.loaded = false := loaded_eq_false.2 blockReset_u
  have hstatus : Block.reset.status = 0b000#3 := by
    simp [status_noFault blockReset_cause, hloaded]
  exact ⟨hloaded, rfl, hstatus, blockReset_u, exec_reset_faults_without_data (.inl rfl),
    exec_reset_faults_without_data (.inr rfl)⟩

end Sys2Proof.Proofs
end

section
/-!
PROOFS. The two memory primitives (spec/20_memory.md R30): one pair of address and size has a meaning, no other has, and READU and
LOADU are the two commands that perform them.
-/

namespace Sys2Proof.Proofs

open Sys2Proof.Machine Sys2Proof.Laws

/-- The only access of R30 writes `U`. -/
@[simp] theorem memWrite_access (b : Block) (v : Universe) :
    memWrite b accessAddress accessSize v = some (b.writeU v) := rfl

/-- The test of both primitives fails at every pair other than the one of R30. -/
theorem not_access_of_ne {addr n : Nat} (h : (addr, n) ≠ (accessAddress, accessSize)) :
    ¬ (addr = accessAddress ∧ n = accessSize) := by
  rintro ⟨rfl, rfl⟩
  exact h rfl

theorem memRead_of_ne (b : Block) {addr n : Nat} (h : (addr, n) ≠ (accessAddress, accessSize)) :
    memRead b addr n = none :=
  if_neg (not_access_of_ne h)

theorem memWrite_of_ne (b : Block) {addr n : Nat} (v : Universe) (h : (addr, n) ≠ (accessAddress, accessSize)) :
    memWrite b addr n v = none :=
  if_neg (not_access_of_ne h)

/-- On an unfaulted block the data READU answers with is `U`: a loaded value as it stands, and none where it faults (R89). -/
theorem transReadu_data_of_noFault {b : Block} (h : b.cause = .noFault) : (transReadu b).2.data = b.u := by
  cases hu : b.u with
  | none => rw [transReadu_of_none h hu, raise_data]
  | some v => rw [transReadu_of_some h hu, respond_data]

/-- On an unfaulted block all that LOADU does to the block is write `U` (R88). -/
theorem transLoadu_block_of_noFault {b : Block} (h : b.cause = .noFault) (v : Universe) :
    (transLoadu v b).1 = b.writeU v := by
  rw [transLoadu_of_noFault h, respond_block]

/-- Settles O19: at (0, 32) the primitives are `U` and the write of `U`, which READU and LOADU perform; at any other pair the
test of the pair fails. -/
theorem memoryPrimitivesAtFullWidth : Obligations.MemoryPrimitivesAtFullWidth :=
  ⟨memRead_access, fun _ _ => rfl,
    fun b _ _ v h => ⟨memRead_of_ne b h, memWrite_of_ne b v h⟩,
    fun _ h => transReadu_data_of_noFault h,
    fun b v h => (congrArg some (transLoadu_block_of_noFault h v)).trans (memWrite_access b v).symm⟩

end Sys2Proof.Proofs
end

section
/-!
PROOFS. The response of a command (spec/30_encoding.md R52): its status is that of the block the command leaves, and only a READU
that did not fault answers with data.
-/

namespace Sys2Proof.Proofs

open Sys2Proof.Machine Sys2Proof.Laws

/-- Every transition is `respond` on the block it leaves. -/
theorem transact_eq_respond (i : Instr) (b : Block) :
    transact i b = respond (transact i b).1 (transact i b).2.data := by
  obtain ⟨h, -⟩ | ⟨_, -, -, -, h⟩ | ⟨_, -, -, h⟩ | ⟨_, -, -, -, -, h⟩ | ⟨-, -, -, h⟩ | ⟨_, -, -, -, -, h⟩ :=
    transact_cases i b <;> rw [h] <;> rfl

/-- The status of a response is that of the block after the command. -/
theorem transact_status (i : Instr) (b : Block) : (transact i b).2.status = (transact i b).1.status :=
  congrArg (·.2.status) (transact_eq_respond i b)

/-- A READU after which there is no fault found a universe and answers with it, leaving the block as it was (R89). -/
theorem transReadu_of_noFault_after {b : Block} (h : (transReadu b).1.cause = .noFault) :
    ∃ v, b.u = some v ∧ transReadu b = respond b (some v) := by
  have hc : b.cause = .noFault := by
    by_contra hf
    rw [transReadu, unlessFaulted_of_fault hf, respond_block] at h
    exact hf h
  cases hu : b.u with
  | none =>
    rw [transReadu_of_none hc hu, raise_cause] at h
    cases h
  | some v => exact ⟨v, rfl, transReadu_of_some hc hu⟩

/-- Of all a command can do, only a READU that finds a universe answers with data, and it leaves no fault. -/
theorem transact_data_eq_none {i : Instr} {b : Block} (h : ¬ (i = .readu ∧ (transact i b).1.cause = .noFault)) :
    (transact i b).2.data = none := by
  obtain ⟨heq, -⟩ | ⟨_, hi, hc, -, heq⟩ | ⟨_, -, -, heq⟩ | ⟨_, -, -, -, -, heq⟩ | ⟨-, -, -, heq⟩ |
    ⟨_, -, -, -, -, heq⟩ := transact_cases i b
  case inr.inl => exact absurd ⟨hi, by rw [heq, respond_block, hc]⟩ h
  all_goals simp [heq]

/-- Settles O16: the response is the one the command's transition commits. -/
theorem oneResponsePerCommand : Obligations.OneResponsePerCommand := by
  intro i s t h
  rw [exec_eq_commit] at h
  obtain rfl := Host.Outcome.next.inj h
  refine ⟨(transact i s.block).2, commit_responses .., transact_status i s.block, ?_, transact_data_eq_none⟩
  rintro ⟨rfl, hc⟩
  obtain ⟨v, hu, heq⟩ := transReadu_of_noFault_after hc
  simp [transact, heq, hu]

end Sys2Proof.Proofs
end

section
/-!
PROOFS. The codec (spec/30_encoding.md R44 to R48): the packed value as a weighted sum of the cells, and `decode` as the two-sided
inverse of `encode`.
-/

namespace Sys2Proof.Proofs

open Sys2Proof.Machine Sys2Proof.Laws

/-- The low `m` nibbles of a value as a number: the sum of the nibbles at their weights. -/
theorem toNat_mod_eq_weightedSum {v : Universe} {f : Nat → Nat} (hf : ∀ k : Fin 64, (nib v k).toNat = f k.val) {m : Nat}
    (hm : m ≤ 64) : v.toNat % 2 ^ (4 * m) = ((List.range m).map fun k => f k * 2 ^ (4 * k)).sum := by
  induction m with
  | zero => simp [Nat.mod_one]
  | succ m ih =>
    rw [toNat_mod_nibbles v ⟨m, hm⟩, hf, ih (Nat.le_of_succ_le hm), List.range_succ, List.map_append, List.sum_append]
    simp [Nat.mul_comm]

/-- A value is the sum of its 64 nibbles at their weights (R41). -/
theorem toNat_eq_weightedSum {v : Universe} {f : Nat → Nat} (hf : ∀ k : Fin 64, (nib v k).toNat = f k.val) :
    v.toNat = ((List.range 64).map fun k => f k * 2 ^ (4 * k)).sum := by
  rw [← toNat_mod_eq_weightedSum hf le_rfl, Nat.mod_eq_of_lt v.isLt]

/-- Every entry of a valid sequence is 0 or 1, by flat index (R43). -/
theorem getD_of_valid {cells : List Nat} (h : validCells cells = true) (k : Fin 64) :
    cells.getD k.val 0 = 0 ∨ cells.getD k.val 0 = 1 := by
  have hcell := cellAt_of_valid h (rowOf k) (colOf k)
  have hk : 8 * (rowOf k).val + (colOf k).val = k.val := congrArg Fin.val (flatIndex_rowOf_colOf k)
  rwa [cellAt, hk] at hcell

/-- A nibble holds the cell of a valid sequence without loss: `zext_4` (R44). -/
theorem nib_packCells_toNat {cells : List Nat} (h : validCells cells = true) (k : Fin 64) :
    (nib (packCells cells) k).toNat = cells.getD k.val 0 := by
  rw [nib_packCells]
  obtain hk | hk := getD_of_valid h k <;> rw [hk] <;> rfl

/-- What `encode` accepts, and what it answers (R44, R48). -/
theorem encodeCells_eq_ok_iff {cells : List Nat} {v : Universe} :
    encodeCells cells = .ok v ↔ validCells cells = true ∧ packCells cells = v := by
  cases h : validCells cells with
  | true => simp [encodeCells_of_valid h]
  | false => simp [encodeCells_of_invalid h]

/-- LOADCELLS of a sequence `encode` refuses issues no command (R48, R56). -/
theorem expandPseudo_loadCells_of_invalid {cells : List Nat} (h : validCells cells = false) :
    expandPseudo (.loadCells cells) = .error .invalidInput := by
  rw [expandPseudo, encodeCells_of_invalid h]
  rfl

/-- Settles O52: the nibbles of the packed value are the cells, and a value is the weighted sum of its nibbles. -/
theorem encodeIsTheWeightedSum : Obligations.EncodeIsTheWeightedSum :=
  ⟨fun cells h => ⟨packCells cells, encodeCells_of_valid h, toNat_eq_weightedSum (nib_packCells_toNat h),
      nib_packCells_toNat h⟩,
    validCells_iff, fun _ h => ⟨encodeCells_of_invalid h, expandPseudo_loadCells_of_invalid h⟩⟩

/-- `decode` gives back the valid sequence that was packed: both have 64 entries, and they agree at each. -/
theorem decodeCells_packCells {cells : List Nat} (h : validCells cells = true) : decodeCells (packCells cells) = cells := by
  obtain ⟨hlen, -⟩ := (validCells_iff cells).1 h
  apply List.ext_getElem (by rw [decodeCells_length, hlen])
  intro k hk hk'
  have hnib := nib_packCells_toNat h ⟨k, hlen ▸ hk'⟩
  rwa [← decodeCells_getD, List.getD_eq_getElem _ 0 hk, List.getD_eq_getElem _ 0 hk'] at hnib

/-- Packing the nibbles of a value gives the value, malformed or not. -/
theorem packCells_decodeCells (v : Universe) : packCells (decodeCells v) = v :=
  ext_nib fun k => by rw [nib_packCells, decodeCells_getD, BitVec.ofNat_toNat, BitVec.setWidth_eq]

/-- The nibbles of a well-formed value are a valid sequence (R15, R43). -/
theorem validCells_decodeCells {v : Universe} (h : wf v = true) : validCells (decodeCells v) = true := by
  rw [validCells_iff]
  refine ⟨decodeCells_length v, fun a ha => ?_⟩
  obtain ⟨k, -, rfl⟩ := List.mem_map.1 ha
  obtain hk | hk := (wf_iff v).1 h k <;> simp [hk]

/-- Settles O53: `decode` undoes packing on valid sequences, and packing undoes `decode` on every value. -/
theorem codecRoundTrip : Obligations.CodecRoundTrip := by
  refine ⟨fun cells v h => ?_, fun v h => encodeCells_eq_ok_iff.2 ⟨validCells_decodeCells h, packCells_decodeCells v⟩⟩
  obtain ⟨hvalid, rfl⟩ := encodeCells_eq_ok_iff.1 h
  exact decodeCells_packCells hvalid

end Sys2Proof.Proofs
end

section
/-!
PROOFS. The rotations as shifts round the end of the word (spec/40_vector_primitives.md R59 to R62): each is a word cut in two whose
parts change places.
-/

namespace Sys2Proof.Proofs

open Sys2Proof.Machine Sys2Proof.Laws

/-- A word whose low `n` bits and high `m` bits change places is the word rotated right by `n`. -/
theorem swapParts_eq_rotateRight {w m n : Nat} (hw : n + m = w) (hm : 0 < m) (x : BitVec w) :
    (x.extractLsb' 0 n ++ x.extractLsb' n m).cast hw = x.rotateRight n := by
  apply BitVec.eq_of_getLsbD_eq
  intro i hi
  rw [BitVec.getLsbD_cast, BitVec.getLsbD_append, BitVec.getLsbD_rotateRight_of_lt (by omega)]
  by_cases h : i < m
  · simp [h, show i < w - n by omega]
  · simp [h, hi, show w - n = m by omega, show i - m < n by omega]

/-- The same exchange seen from the other side: the word rotated left by its high part's width. -/
theorem swapParts_eq_rotateLeft {w m n : Nat} (hw : n + m = w) (hm : 0 < m) (hn : 0 < n) (x : BitVec w) :
    (x.extractLsb' 0 n ++ x.extractLsb' n m).cast hw = x.rotateLeft m := by
  rw [swapParts_eq_rotateRight hw hm, BitVec.rotateRight_def, BitVec.rotateLeft_def, BitVec.or_comm,
    Nat.mod_eq_of_lt (by omega), Nat.mod_eq_of_lt (by omega), show w - n = m by omega, show w - m = n by omega]

/-- `ROTROW_UP` is the rotation of the 256 bits right by one lane (R59). -/
theorem rotRowUp_eq_rotateRight (v : Universe) : rotRowUp v = v.rotateRight 32 :=
  swapParts_eq_rotateRight (n := 32) (m := 224) rfl (by decide) v

/-- `ROTROW_DN` is the rotation of the 256 bits left by one lane (R60). -/
theorem rotRowDn_eq_rotateLeft (v : Universe) : rotRowDn v = v.rotateLeft 32 :=
  swapParts_eq_rotateLeft (n := 224) (m := 32) rfl (by decide) (by decide) v

/-- `ROTCOL_L` rotates each lane right by one field (R61). -/
theorem lane_rotColL (v : Universe) (r : Fin 8) : lane (rotColL v) r = (lane v r).rotateRight 4 := by
  rw [rotColL, lane_pack]
  exact swapParts_eq_rotateRight (n := 4) (m := 28) rfl (by decide) (lane v r)

/-- `ROTCOL_R` rotates each lane left by one field (R62). -/
theorem lane_rotColR (v : Universe) (r : Fin 8) : lane (rotColR v) r = (lane v r).rotateLeft 4 := by
  rw [rotColR, lane_pack]
  exact swapParts_eq_rotateLeft (n := 28) (m := 4) rfl (by decide) (by decide) (lane v r)

/-- Settles O36: at cell level by the four field laws, at bit level because a rotation lets the two parts of a word change
places. -/
theorem rotationsMoveFields : Obligations.RotationsMoveFields := fun v r c =>
  ⟨field_rotRowUp v r c, field_rotRowDn v r c, field_rotColL v r c, field_rotColR v r c,
    rotRowUp_eq_rotateRight v, rotRowDn_eq_rotateLeft v, lane_rotColL v r, lane_rotColR v r⟩

end Sys2Proof.Proofs
end

section
/-!
PROOFS. Sums of fields (spec/40_vector_primitives.md R64, R65): a field adds modulo 16, and a sum of at most 15 zeros and ones does
not reach 16.
-/

namespace Sys2Proof.Proofs

open Sys2Proof.Machine Sys2Proof.Laws

/-- Settles O38: the field law of `ADD4`, with addition of 4-bit words read as addition of numbers modulo 16, and its algebra. -/
theorem add4AddsFieldsModulo16 : Obligations.Add4AddsFieldsModulo16 := by
  refine ⟨fun a b k => ?_, add4_comm, add4_assoc, add4_zero⟩
  rw [nib_add4, BitVec.toNat_add]

/-- `field_gather` by flat cell (R74). -/
theorem nib_gather (vs : List Universe) (k : Fin 64) : nib (gather vs) k = (vs.map fun v => nib v k).sum := by
  simp only [nib_eq_field, field_gather]

/-- A sum of words is the sum of their numbers, modulo the words' range. -/
theorem toNat_listSum {w : Nat} (l : List (BitVec w)) : l.sum.toNat = (l.map BitVec.toNat).sum % 2 ^ w := by
  induction l with
  | nil => simp
  | cons x xs ih => simp [BitVec.toNat_add, ih]

/-- A field of the gathered sum is the integer sum of the fields, modulo 16. -/
theorem nib_gather_toNat (vs : List Universe) (k : Fin 64) :
    (nib (gather vs) k).toNat = (vs.map fun v => (nib v k).toNat).sum % 16 := by
  rw [nib_gather, toNat_listSum, List.map_map]
  rfl

/-- A field of a well-formed value counts for at most 1 (R15). -/
theorem nib_toNat_le_one {v : Universe} (h : wf v = true) (k : Fin 64) : (nib v k).toNat ≤ 1 := by
  obtain hk | hk := (wf_iff v).1 h k <;> simp [hk]

/-- The integer sum of the fields of well-formed values is at most their number. -/
theorem fieldSum_le_length {vs : List Universe} (h : ∀ v ∈ vs, wf v = true) (k : Fin 64) :
    (vs.map fun v => (nib v k).toNat).sum ≤ vs.length := by
  simpa using List.sum_le_card_nsmul (vs.map fun v => (nib v k).toNat) 1
    (List.forall_mem_map.2 fun v hv => nib_toNat_le_one (h v hv) k)

/-- Settles O39: the integer sum is at most the number of summands, so below 16, where the sum modulo 16 is the sum itself. -/
theorem noCarryBound : Obligations.NoCarryBound := by
  refine ⟨fun vs hlen hwf k => ?_, fun p => ⟨rfl, rfl⟩⟩
  have hle := fieldSum_le_length hwf k
  have htrue : (nib (gather vs) k).toNat = (vs.map fun v => (nib v k).toNat).sum := by
    rw [nib_gather_toNat, Nat.mod_eq_of_lt (by omega)]
  exact ⟨htrue, htrue.trans_le hle⟩

end Sys2Proof.Proofs
end

section
/-!
PROOFS. The two primitives that end a step (spec/40_vector_primitives.md R68, R69): `OR256` on a field, and the comparison `EQ3`.
-/

namespace Sys2Proof.Proofs

open Sys2Proof.Machine Sys2Proof.Laws

/-- The or with 1 forces bit 0 of a nibble and keeps bits 3 to 1. -/
theorem toNat_or_one : ∀ x : Nibble, (x ||| 1#4).toNat = 2 * (x.toNat / 2) + 1 := by
  decide

/-- Settles O41: the or of the bits is that of the words, and on a field it is the or with 0 or with 1. -/
theorem or256SetsTheLowestBit : Obligations.Or256SetsTheLowestBit := by
  intro a b k
  refine ⟨fun _ => BitVec.getLsbD_or, nib_or256 a b k, fun h => ?_, fun h => ?_⟩
  · rw [nib_or256, h, BitVec.or_zero]
  · rw [nib_or256, h, toNat_or_one]

/-- `EQ3` writes 0 and 1 alone, so its result is well-formed whatever its operand (R69). -/
theorem wf_eq3 (v : Universe) : wf (eq3 v) = true := by
  rw [wf_iff]
  intro k
  rw [nib_eq3]
  split
  · exact .inr rfl
  · exact .inl rfl

/-- No field of 0 holds 3, so `EQ3(0) = 0` (R69). -/
theorem eq3_zero : eq3 0#256 = 0#256 :=
  ext_nib fun k => by rw [nib_eq3, nib_zero, if_neg (by decide)]

/-- Settles O42: the two branches of the field law of `EQ3`. -/
theorem eq3ComparesFieldsWith3 : Obligations.Eq3ComparesFieldsWith3 :=
  ⟨fun v k => ⟨fun h => by rw [nib_eq3, if_pos h], fun h => by rw [nib_eq3, if_neg h]⟩, wf_eq3, eq3_zero⟩

end Sys2Proof.Proofs
end

section
/-!
PROOFS. The eight views and their sum (spec/41_step.md R73 to R75): each view is the operand seen from a neighbour, COUNT is the
number of live neighbours, and the merge sets the self bit.
-/

namespace Sys2Proof.Proofs

open Sys2Proof.Machine Sys2Proof.Laws

/-- The neighbour each view shows, in the order of R73: S, N, E, W, SE, SW, NE, NW. -/
def viewOffsets : List (Fin 8 × Fin 8) :=
  [(1, 0), (-1, 0), (0, 1), (0, -1), (1, 1), (1, -1), (-1, 1), (-1, -1)]

/-- The views show the Moore neighbourhood of R71, each neighbour once. -/
theorem viewOffsets_perm : viewOffsets.Perm mooreOffsets := by
  decide

/-- The fields the eight views hold at one cell are the fields of its eight neighbours (R73). -/
theorem field_views (p : Universe) (r c : Fin 8) :
    (views p).map (fun v => field v r c) = viewOffsets.map fun d => field p (r + d.1) (c + d.2) := by
  simp [views, viewsWith, viewOffsets, sub_eq_add_neg]

/-- A view of a well-formed value holds nothing but fields of that value, so it is well-formed (R73). -/
theorem wf_of_mem_views {p v : Universe} (hp : wf p = true) (hv : v ∈ views p) : wf v = true := by
  rw [wf_iff_field] at hp ⊢
  intro r c
  have hmem : field v r c ∈ viewOffsets.map fun d => field p (r + d.1) (c + d.2) := by
    rw [← field_views]
    exact List.mem_map_of_mem hv
  obtain ⟨d, -, hd⟩ := List.mem_map.1 hmem
  exact hd ▸ hp (r + d.1) (c + d.2)

/-- Settles O43: the field laws of the rotations, composed along the table; a view rearranges fields, so it keeps `WF`. -/
theorem viewsShowNeighbours : Obligations.ViewsShowNeighbours := fun p =>
  ⟨⟨_, _, _, _, _, _, _, _, rfl, rfl, rfl, rfl, rfl, rfl, rfl, rfl, rfl, by simp⟩, fun hp _ => wf_of_mem_views hp⟩

/-- A field of COUNT is the sum of the neighbours' fields, modulo 16 (R74). -/
theorem field_count (p : Universe) (r c : Fin 8) :
    field (count p) r c = (viewOffsets.map fun d => field p (r + d.1) (c + d.2)).sum := by
  rw [count, field_gather, field_views]

/-- `decode` shows the host the cells of the value (R46, R71). -/
theorem cellAt_decodeCells (p : Universe) (r c : Fin 8) : cellAt (decodeCells p) r c = cell p r c := by
  rw [cell, field_eq_nib, ← decodeCells_getD]
  rfl

/-- The reference count of R71, taken over the views' neighbours. -/
theorem liveNeighbours_decodeCells (p : Universe) (r c : Fin 8) :
    liveNeighbours (decodeCells p) r c = (viewOffsets.map fun d => cell p (r + d.1) (c + d.2)).sum := by
  simp only [liveNeighbours, cellAt_decodeCells]
  exact (viewOffsets_perm.map _).sum_eq.symm

/-- On a well-formed operand no field of COUNT wraps: it is the live-neighbour count, at most 8 (R65, R74). -/
theorem cell_count_of_wf {p : Universe} (hp : wf p = true) (r c : Fin 8) :
    cell (count p) r c = liveNeighbours (decodeCells p) r c ∧ cell (count p) r c ≤ 8 := by
  obtain ⟨hsum, hle⟩ :=
    noCarryBound.1 (views p) (show 8 ≤ 15 by decide) (fun _ => wf_of_mem_views hp) (flatIndex r c)
  simp only [← field_eq_nib] at hsum hle
  refine ⟨?_, hle⟩
  calc cell (count p) r c
      = ((views p).map fun v => (field v r c).toNat).sum := hsum
    _ = (((views p).map fun v => field v r c).map BitVec.toNat).sum := by rw [List.map_map]; rfl
    _ = liveNeighbours (decodeCells p) r c := by
      rw [field_views, List.map_map, liveNeighbours_decodeCells]
      rfl

/-- A dead cell's merged field is its count (R75). -/
theorem cell_merged_of_dead {p : Universe} {r c : Fin 8} (h : field p r c = 0#4) :
    cell (merged p) r c = cell (count p) r c := by
  rw [cell, merged, field_or256, h, BitVec.or_zero, cell]

/-- A live cell's merged field is its count with bit 0 set (R75). -/
theorem cell_merged_of_live {p : Universe} {r c : Fin 8} (h : field p r c = 1#4) :
    cell (merged p) r c = cell (count p) r c ||| 1 := by
  rw [cell, merged, field_or256, h, BitVec.toNat_or, cell]
  rfl

/-- A count with bit 0 set is odd and at most 9 (R75). -/
theorem or_one_mem_of_le_eight {n : Nat} (h : n ≤ 8) : n ||| 1 ∈ [1, 3, 5, 7, 9] := by
  interval_cases n <;> decide

/-- Settles O46: COUNT is the live-neighbour count, and the or with `P` leaves a dead cell's and sets bit 0 of a live cell's. -/
theorem mergeSetsTheSelfBit : Obligations.MergeSetsTheSelfBit := by
  refine ⟨fun _ => rfl, fun p hp r c => ?_⟩
  obtain ⟨hcount, hle⟩ := cell_count_of_wf hp r c
  refine ⟨fun hdead => ?_, fun hlive => ?_⟩
  · rw [cell_merged_of_dead hdead]
    exact ⟨hcount, hle⟩
  · rw [cell_merged_of_live hlive]
    exact ⟨congrArg (· ||| 1) hcount, or_one_mem_of_le_eight hle⟩

end Sys2Proof.Proofs
end

section
/-!
PROOFS. The rule (spec/41_step.md R77) and the STEP command (R82): the four branches of its checks, and the two universes in which
all cells are alike.
-/

namespace Sys2Proof.Proofs

open Sys2Proof.Machine Sys2Proof.Laws

/-- Settles O47: each of the 18 pairs of a count and an own state is evaluated. -/
theorem oneCompareIsTheRule : Obligations.OneCompareIsTheRule := by
  unfold Obligations.OneCompareIsTheRule
  decide

/-- Where all cells are alike, every field merges eight copies of the one value with that value; where this is not 3, the next
generation is empty. -/
theorem stepFn_of_uniform {p : Universe} {x : Nibble} (hp : ∀ k, nib p k = x)
    (hx : (List.replicate 8 x).sum ||| x ≠ 3#4) : stepFn p = 0#256 := by
  have hfield : ∀ r c, field p r c = x := fun r c => by rw [field_eq_nib, hp]
  have hcount : ∀ r c, field (count p) r c = (List.replicate 8 x).sum := fun r c => by
    simp only [field_count, hfield, List.map_const']
    rfl
  refine ext_field fun r c => ?_
  rw [stepFn, field_eq3, merged, field_or256, hcount, hfield, if_neg hx, field_eq_nib, nib_zero]

/-- Every cell of the full universe is alive. -/
theorem nib_full (k : Fin 64) :
    nib 0x1111111111111111111111111111111111111111111111111111111111111111#256 k = 1#4 := by
  revert k; decide +kernel

/-- What the committed transition makes of the machine, the status given as its code (R49, R52). -/
theorem commit_respond (s : State) {b : Block} {status : BitVec 3} (hb : b.status = status) (data : Option Universe) :
    s.commit (respond b data) =
      { block := b, pending := s.pending, responses := s.responses ++ [{ status := status, data := data }] } := by
  subst hb
  rfl

/-- The status of an unfaulted block with a universe loaded (R22). -/
theorem status_of_loaded (v : Universe) : ({ u := some v, cause := .noFault } : Block).status = 0b001#3 := by
  rw [status_noFault rfl, loaded_eq_true.2 ⟨v, rfl⟩, if_pos rfl]

/-- Settles O11: a block given by its two fields meets one branch of the checks, and a law of STEP says which transition it
commits; the empty and the full universe are uniform, with merged fields 0 and 9. -/
theorem stepAdvancesOneGeneration : Obligations.StepAdvancesOneGeneration := by
  refine ⟨fun _ => rfl, ?wellFormed, ?malformed, ?notLoaded, ?faulted,
    stepFn_of_uniform nib_zero (by decide), stepFn_of_uniform nib_full (by decide)⟩
  case wellFormed =>
    rintro ⟨⟨_, _⟩, _, _⟩ p rfl rfl hp
    rw [exec_eq_commit, transact, transStep_of_wf rfl rfl hp]
    exact congrArg _ (commit_respond _ (status_of_loaded (stepFn p)) none)
  case malformed =>
    rintro ⟨⟨_, _⟩, _, _⟩ p rfl rfl hp
    rw [exec_eq_commit, transact, transStep_of_malformed rfl rfl hp]
    exact congrArg _ (commit_respond _ (status_malformed rfl rfl) none)
  case notLoaded =>
    rintro ⟨⟨_, _⟩, _, _⟩ rfl rfl
    rw [exec_eq_commit, transact, transStep_of_none rfl rfl]
    exact congrArg _ (commit_respond _ (status_uninitialised rfl rfl) none)
  case faulted =>
    intro s hc
    rw [exec_eq_commit, transact_of_fault hc]
    rfl

end Sys2Proof.Proofs
end

section
/-!
PROOFS. The host commands NOP, LOADU and READU (spec/42_host_commands.md R87 to R89): what each makes of the machine, and that a
loaded value, malformed or not, stands until the next STEP.
-/

namespace Sys2Proof.Proofs

open Sys2Proof.Machine Sys2Proof.Laws

/-- The block a command leaves is that of its transition. -/
theorem block_of_exec {i : Instr} {s t : State} (h : exec i s = .next t) : t.block = (transact i s.block).1 := by
  rw [exec_eq_commit] at h
  obtain rfl := Host.Outcome.next.inj h
  rfl

/-- A faulted block answers every command with its status and no data, and changes nothing else (R101). -/
theorem exec_of_fault {s : State} (hc : s.block.cause ≠ .noFault) (i : Instr) :
    exec i s = .next { s with responses := s.responses ++ [{ status := s.block.status, data := none }] } := by
  rw [exec_eq_commit, transact_of_fault hc]
  rfl

/-- On an unfaulted block LOADU stores its operand unchecked (R88). -/
theorem exec_loadu_of_noFault {s : State} (hc : s.block.cause = .noFault) (v : Universe) :
    exec (.loadu v) s = .next
      { block := { u := some v, cause := .noFault }, pending := s.pending,
        responses := s.responses ++ [{ status := 0b001#3, data := none }] } := by
  have hwrite : s.block.writeU v = { u := some v, cause := .noFault } := hc ▸ rfl
  rw [exec_eq_commit, transact, transLoadu_of_noFault hc, hwrite, commit_respond s (status_of_loaded v)]

/-- On a loaded, unfaulted block READU answers with `U` as it stands, and the block stays (R89). -/
theorem exec_readu_of_loaded {s : State} {v : Universe} (hc : s.block.cause = .noFault) (hu : s.block.u = some v) :
    exec .readu s = .next { s with responses := s.responses ++ [{ status := 0b001#3, data := some v }] } := by
  have hstatus : s.block.status = 0b001#3 := by rw [status_noFault hc, loaded_eq_true.2 ⟨v, hu⟩, if_pos rfl]
  rw [exec_eq_commit, transact, transReadu_of_some hc hu, commit_respond s hstatus]

/-- Writing the value `U` already holds is no change. -/
theorem writeU_of_u_eq {b : Block} {v : Universe} (hu : b.u = some v) : b.writeU v = b := by
  obtain ⟨_, _⟩ := b
  cases hu
  rfl

/-- Loading the value already in `U` leaves the block as it is, faulted or not (R88). -/
theorem transact_loadu_block_of_u_eq {b : Block} {v : Universe} (hu : b.u = some v) : (transact (.loadu v) b).1 = b := by
  by_cases hc : b.cause = .noFault
  · rw [transact, transLoadu_block_of_noFault hc, writeU_of_u_eq hu]
  · rw [transact_of_fault hc, respond_block]

/-- NOP and READU leave a loaded block as it is, faulted or not (R87, R89). -/
theorem transact_block_of_loaded {i : Instr} {b : Block} {v : Universe} (hi : i = .nop ∨ i = .readu) (hu : b.u = some v) :
    (transact i b).1 = b := by
  obtain rfl | rfl := hi
  · rw [transact, transNop_eq, respond_block]
  · by_cases hc : b.cause = .noFault
    · rw [transact, transReadu_of_some hc hu, respond_block]
    · rw [transact_of_fault hc, respond_block]

/-- On a loaded, unfaulted block no command but STEP enters a fault. -/
theorem transact_noFault_of_ne_step {i : Instr} {b : Block} {v : Universe} (hi : i ≠ .step) (hc : b.cause = .noFault)
    (hu : b.u = some v) : (transact i b).1.cause = .noFault := by
  cases i with
  | nop => rw [transact_block_of_loaded (.inl rfl) hu, hc]
  | loadu w => rw [transact, transLoadu_block_of_noFault hc, writeU_cause, hc]
  | step => exact absurd rfl hi
  | readu => rw [transact_block_of_loaded (.inr rfl) hu, hc]

/-- Settles O9: the transition of NOP is the bare response, committed. -/
theorem nopResponds : Obligations.NopResponds :=
  ⟨fun _ => rfl, fun s => exec_eq_commit .nop s⟩

/-- Settles O10: after LOADU the block is loaded and unfaulted, so READU shows the value, only STEP can fault, and STEP does so by
its check of `WF` (R82). -/
theorem loaduStoresAnyValue : Obligations.LoaduStoresAnyValue := by
  refine ⟨fun _ => rfl, fun _ v hc => exec_loadu_of_noFault hc v, fun _ v hc => exec_of_fault hc (.loadu v), ?reload, ?loaded⟩
  case reload =>
    intro s t v hu h
    rw [block_of_exec h, transact_loadu_block_of_u_eq hu]
  case loaded =>
    intro s t v hc h
    rw [exec_loadu_of_noFault hc] at h
    obtain rfl := Host.Outcome.next.inj h
    obtain ⟨-, -, step_of_malformed, -⟩ := stepAdvancesOneGeneration
    exact ⟨exec_readu_of_loaded rfl rfl, step_of_malformed _ v rfl rfl,
      fun i _ h' hi => (congrArg Block.cause (block_of_exec h')).trans (transact_noFault_of_ne_step hi rfl rfl),
      fun i _ h' hi => (block_of_exec h').trans (transact_block_of_loaded hi rfl)⟩

/-- Settles O12: the three branches of READU, of which the one with nothing loaded is a fault entry (R97). -/
theorem readuReturnsTheUniverse : Obligations.ReaduReturnsTheUniverse := by
  refine ⟨fun _ => rfl, fun _ _ hc hu => exec_readu_of_loaded hc hu, ?notLoaded, fun _ hc => exec_of_fault hc .readu⟩
  rintro ⟨⟨_, _⟩, _, _⟩ rfl rfl
  rw [exec_of_not_loaded (.inr rfl) rfl rfl]
  exact congrArg _ (commit_respond _ (status_uninitialised rfl rfl) none)

end Sys2Proof.Proofs
end

section
/-!
PROOFS. Fault entry (spec/60_exceptions.md R96 to R100): the condition under which a command raises each fault, and that a command
which finds a condition met does the fault entry of R100 and nothing else.
-/

namespace Sys2Proof.Proofs

open Sys2Proof.Machine Sys2Proof.Laws

/-- The command that meets the block and what it finds there, for each fault of an unfaulted block (R97, R98). -/
def RaisedBy : Fault → Instr → Block → Prop
  | .uninitialisedUniverse, i, b => (i = .step ∨ i = .readu) ∧ b.loaded = false
  | .malformedUniverse, i, b => i = .step ∧ ∃ v, b.u = some v ∧ wf v = false

theorem raisedBy_uninitialised {i : Instr} {b : Block} :
    RaisedBy .uninitialisedUniverse i b ↔ (i = .step ∨ i = .readu) ∧ b.loaded = false := .rfl

/-- A value that is not well-formed has a nibble from 2 to 15 (R98). -/
theorem wf_eq_false_iff (v : Universe) : wf v = false ↔ ∃ k : Fin 64, 2 ≤ (nib v k).toNat := by
  have hnib : ∀ x : Nibble, ¬ (x = 0#4 ∨ x = 1#4) ↔ 2 ≤ x.toNat := by decide
  simp only [← Bool.not_eq_true, wf_iff, not_forall, hnib]

theorem raisedBy_malformed {i : Instr} {b : Block} :
    RaisedBy .malformedUniverse i b ↔ i = .step ∧ ∃ v, b.u = some v ∧ ∃ k : Fin 64, 2 ≤ (nib v k).toNat := by
  simp only [RaisedBy, wf_eq_false_iff]

theorem fault_cause_injective : Function.Injective Fault.cause := by
  intro f g
  cases f <;> cases g <;> decide

theorem fault_cause_ne_noFault (f : Fault) : f.cause ≠ .noFault := by
  cases f <;> decide

/-- A command that finds the condition of a fault met does the fault entry of R100. -/
theorem transact_of_raisedBy {f : Fault} {i : Instr} {b : Block} (hc : b.cause = .noFault) (h : RaisedBy f i b) :
    transact i b = raise f b := by
  cases f with
  | uninitialisedUniverse =>
    obtain ⟨rfl | rfl, hl⟩ := h
    · exact transStep_of_none hc (loaded_eq_false.1 hl)
    · exact transReadu_of_none hc (loaded_eq_false.1 hl)
  | malformedUniverse =>
    obtain ⟨rfl, v, hu, hv⟩ := h
    exact transStep_of_malformed hc hu hv

/-- There are no causes but the two: a command that finds neither condition met leaves the block unfaulted (R96). -/
theorem transact_noFault_or_raisedBy (i : Instr) {b : Block} (hc : b.cause = .noFault) :
    (transact i b).1.cause = .noFault ∨ ∃ f, RaisedBy f i b := by
  obtain ⟨h, -⟩ | ⟨_, -, -, -, h⟩ | ⟨_, -, -, h⟩ | ⟨_, -, -, -, -, h⟩ | ⟨hi, -, hu, -⟩ | ⟨v, hi, -, hu, hv, -⟩ :=
    transact_cases i b
  case inr.inr.inr.inr.inl => exact .inr ⟨.uninitialisedUniverse, hi, loaded_eq_false.2 hu⟩
  case inr.inr.inr.inr.inr => exact .inr ⟨.malformedUniverse, hi, v, hu, hv⟩
  all_goals exact .inl (by simp [h, hc])

/-- The cause after a command tells which condition it found met. -/
theorem transact_cause_eq_iff {f : Fault} {i : Instr} {b : Block} (hc : b.cause = .noFault) :
    (transact i b).1.cause = f.cause ↔ RaisedBy f i b := by
  constructor
  · intro h
    obtain hno | ⟨g, hg⟩ := transact_noFault_or_raisedBy i hc
    · exact absurd (h.symm.trans hno) (fault_cause_ne_noFault f)
    · rw [transact_of_raisedBy hc hg, raise_cause] at h
      exact fault_cause_injective h ▸ hg
  · intro h
    rw [transact_of_raisedBy hc h, raise_cause]

/-- A command takes an unfaulted machine into a fault exactly if it finds the condition of that fault met (R97, R98). -/
theorem exec_enters_iff (f : Fault) {i : Instr} {s t : State} (h : exec i s = .next t) :
    (s.block.cause = .noFault ∧ t.block.cause = f.cause) ↔ (s.block.cause = .noFault ∧ RaisedBy f i s.block) := by
  rw [block_of_exec h]
  exact and_congr_right transact_cause_eq_iff

/-- A command after which a machine that was unfaulted is in a fault has done the fault entry, committed (R100). -/
theorem eq_commit_raise_of_exec {i : Instr} {s t : State} (h : exec i s = .next t) (hc : s.block.cause = .noFault)
    (ht : t.block.cause ≠ .noFault) : ∃ f : Fault, t = s.commit (raise f s.block) := by
  rw [block_of_exec h] at ht
  obtain ⟨f, hf⟩ := (transact_noFault_or_raisedBy i hc).resolve_left ht
  rw [exec_eq_commit, transact_of_raisedBy hc hf] at h
  exact ⟨f, (Host.Outcome.next.inj h).symm⟩

/-- A command that enters a fault keeps `U` (R100). -/
theorem u_of_exec_enters {i : Instr} {s t : State} (h : exec i s = .next t) (hc : s.block.cause = .noFault)
    (ht : t.block.cause ≠ .noFault) : t.block.u = s.block.u := by
  obtain ⟨f, rfl⟩ := eq_commit_raise_of_exec h hc ht
  rw [commit_block, raise_u]

/-- Settles O20: the condition of UninitialisedUniverse is a STEP or a READU that finds LOADED = 0. -/
theorem uninitialisedFaultExactly : Obligations.UninitialisedFaultExactly := by
  refine ⟨rfl, fun i s t h =>
    ⟨(exec_enters_iff .uninitialisedUniverse h).trans ?_, fun hc ht => u_of_exec_enters h hc (by simp [ht])⟩⟩
  rw [raisedBy_uninitialised, and_left_comm]

/-- Settles O21: the condition of MalformedUniverse is a STEP that finds a value with a nibble above 1. -/
theorem malformedFaultExactly : Obligations.MalformedFaultExactly := by
  refine ⟨rfl, fun i s t h =>
    ⟨(exec_enters_iff .malformedUniverse h).trans ?_, fun hc ht => u_of_exec_enters h hc (by simp [ht])⟩⟩
  rw [raisedBy_malformed, and_left_comm]

/-- Settles O22: what `raise` writes is its definition, and a command that leaves a new fault has met a fault's condition. -/
theorem faultEntryWritesCauseOnly : Obligations.FaultEntryWritesCauseOnly :=
  ⟨fun _ _ => rfl, fun _ _ _ => eq_commit_raise_of_exec⟩

end Sys2Proof.Proofs
end

section
/-!
PROOFS. The encoding of commands (spec/30_encoding.md R50, R51, R54): the opcode map case by case, and the two ways of presenting a
command, on the ports and as one serial word.
-/

namespace Sys2Proof.Proofs

open Sys2Proof.Machine Sys2Proof.Laws

/-- The opcode map of R50, as the four codes there are. -/
theorem decode_cases (c : CommandWord) :
    (c.cmd = 0b00#2 ∧ decode c = .nop) ∨ (c.cmd = 0b01#2 ∧ decode c = .loadu c.wdata) ∨
      (c.cmd = 0b10#2 ∧ decode c = .step) ∨ (c.cmd = 0b11#2 ∧ decode c = .readu) := by
  have hcodes : ∀ op : Opcode, op = 0b00#2 ∨ op = 0b01#2 ∨ op = 0b10#2 ∨ op = 0b11#2 := by decide
  obtain h | h | h | h := hcodes c.cmd <;> simp [decode, h]

theorem decode_encode (i : Instr) : decode (encode i) = i := by
  cases i <;> rfl

/-- Re-encoding decoded ports keeps their code, whatever stood on `wdata`. -/
theorem encode_decode_cmd (c : CommandWord) : (encode (decode c)).cmd = c.cmd := by
  obtain ⟨h, hd⟩ | ⟨h, hd⟩ | ⟨h, hd⟩ | ⟨h, hd⟩ := decode_cases c <;> rw [hd, h] <;> rfl

/-- LOADU's code decodes to LOADU of all that stands on `wdata` (R51). -/
theorem decode_of_cmd_loadu {c : CommandWord} (h : c.cmd = 0b01#2) : decode c = .loadu c.wdata := by
  simp [decode, h]

theorem encode_decode_of_cmd_loadu {c : CommandWord} (h : c.cmd = 0b01#2) : encode (decode c) = c := by
  obtain ⟨_, _⟩ := c
  cases h
  rfl

/-- The serial word loses no bit of the ports: `cmd` is its remainder by 4 and `wdata` its quotient. -/
theorem portsOfWord_wordOfPorts (c : CommandWord) : portsOfWord (wordOfPorts c) = c := by
  have hcmd : c.cmd.toNat < 4 := c.cmd.isLt
  have hmod : (c.cmd.toNat + 4 * c.wdata.toNat) % 2 ^ 2 = c.cmd.toNat := by omega
  have hdiv : (c.cmd.toNat + 4 * c.wdata.toNat) / 4 = c.wdata.toNat := by omega
  have hop : BitVec.ofNat 2 (wordOfPorts c) = c.cmd := BitVec.eq_of_toNat_eq hmod
  rw [portsOfWord, hop, wordOfPorts, hdiv, BitVec.ofNat_toNat, BitVec.setWidth_eq]

/-- A serial word has 2 + 256 bits. -/
theorem wordOfPorts_lt {nbits : Nat} (h : 258 ≤ nbits) (c : CommandWord) : wordOfPorts c < 2 ^ nbits := by
  have hcmd : c.cmd.toNat < 4 := c.cmd.isLt
  have hdata : c.wdata.toNat < 2 ^ 256 := c.wdata.isLt
  calc wordOfPorts c < 2 ^ 256 * 2 ^ 2 := by simp only [wordOfPorts]; omega
    _ ≤ 2 ^ 256 * 2 ^ (nbits - 256) := Nat.mul_le_mul_left _ (Nat.pow_le_pow_right (by decide) (by omega))
    _ = 2 ^ nbits := by rw [← pow_add, Nat.add_sub_cancel' (by omega)]

/-- At every length that holds it the table word of a command is its serial word, so nothing of the ports is cut off. -/
theorem portsOfTableWord_wordOfPorts {nbits : Nat} (h : 258 ≤ nbits) (c : CommandWord) :
    portsOfTableWord nbits (wordOfPorts c) = c := by
  rw [portsOfTableWord, Nat.mod_eq_of_lt (wordOfPorts_lt h c), portsOfWord_wordOfPorts]

/-- The table word of a command decodes to it. -/
theorem decodeTableWord_wordOfPorts {nbits : Nat} (h : 258 ≤ nbits) (i : Instr) :
    decodeTableWord nbits (wordOfPorts (encode i)) = some i := by
  rw [decodeTableWord, portsOfTableWord_wordOfPorts h, decode_encode]

/-- Settles O1: the ports decode to the command they were encoded from, and the serial word gives the ports back. -/
theorem decodeAndEncodeAgree : Obligations.DecodeAndEncodeAgree :=
  ⟨fun i _ => decode_encode i, fun i _ h => decodeTableWord_wordOfPorts h i, portsOfWord_wordOfPorts,
    encode_decode_cmd, fun _ => encode_decode_of_cmd_loadu⟩

/-- Settles O2: LOADU's code reads `wdata`, the other three codes do not look at it. -/
theorem operandAssembly : Obligations.OperandAssembly :=
  ⟨fun _ => decode_of_cmd_loadu rfl, fun _ => rfl, fun _ => rfl, fun _ => rfl⟩

/-- Settles O3: the four short words are decoded, and the long one is the table word of its LOADU. -/
theorem tableWordsDecode : Obligations.TableWordsDecode := by
  have hword : 2 ^ 86 + 1 = wordOfPorts (encode (.loadu (BitVec.ofNat 256 (2 ^ 84)))) := rfl
  refine ⟨rfl, rfl, rfl, rfl, ?_⟩
  rw [hword, decodeTableWord_wordOfPorts (by decide)]
  rfl

end Sys2Proof.Proofs
end

section
/-!
PROOFS. The text of a command (spec/30_encoding.md R55): the 64 digits of an operand read back as the operand, and the words of a
printed command, with or without a comment, read back as the command.
-/

namespace Sys2Proof.Proofs

open Sys2Proof.Machine Sys2Proof.Laws

/-- Separators that a filter drops leave no trace in the joined text. -/
theorem filter_flatten_intersperse {α : Type} {p : α → Bool} {sep : List α} (hsep : sep.filter p = [])
    (l : List (List α)) : ((l.intersperse sep).flatten).filter p = (l.flatten).filter p := by
  induction l with
  | nil => rfl
  | cons x l ih =>
    cases l with
    | nil => rfl
    | cons y l =>
      rw [List.intersperse_cons_cons]
      simpa [hsep] using ih

/-- Row 7 first and column 7 first is the flat order backwards. -/
theorem rowsReversed_flatMap_flatIndex :
    ((List.finRange 8).reverse.flatMap fun r => (List.finRange 8).reverse.map (flatIndex r)) =
      (List.finRange 64).reverse := by
  decide

/-- The groups of a printed value, joined without '_', are the digits of its nibbles, the last nibble first. -/
theorem flatten_printGroups (v : Universe) :
    ((List.finRange 8).reverse.map (printGroup v)).flatten = (List.finRange 64).reverse.map fun k => hexChar (nib v k) := by
  rw [← rowsReversed_flatMap_flatIndex, List.map_flatMap, List.flatMap_def]
  simp only [List.map_map, Function.comp_def, ← field_eq_nib]
  rfl

/-- What the parser keeps of a printed value: its 64 digits. -/
theorem printHex256_digits (v : Universe) :
    (printHex256 v).filter (fun c => c != '_') = (List.finRange 64).reverse.map fun k => hexChar (nib v k) := by
  rw [printHex256, filter_flatten_intersperse rfl, flatten_printGroups, List.filter_eq_self]
  intro c hc
  obtain ⟨k, -, rfl⟩ := List.mem_map.1 hc
  obtain ⟨-, hne, -⟩ := hexChar_spec (nib v k)
  simpa using hne

/-- Reading the printed digits one by one gives the nibbles' numbers. -/
theorem mapM_hexValue_hexChar (l : List Nibble) : (l.map hexChar).mapM hexValue = some (l.map BitVec.toNat) := by
  induction l with
  | nil => rfl
  | cons d l ih =>
    obtain ⟨hd, -⟩ := hexChar_spec d
    simp [hd, ih]

/-- Reading the low `m` nibbles, the highest first, shifts what was read before by `m` digits and adds their value. -/
theorem foldl_nibbles (v : Universe) {m : Nat} (hm : m ≤ 64) (acc : Nat) :
    ((List.range m).reverse.map fun k => (fieldAt 4 v k).toNat).foldl (fun acc d => 16 * acc + d) acc =
      2 ^ (4 * m) * acc + v.toNat % 2 ^ (4 * m) := by
  induction m generalizing acc with
  | zero => simp [Nat.mod_one]
  | succ m ih =>
    have hnib := toNat_mod_nibbles v ⟨m, hm⟩
    have hpow : 2 ^ (4 * (m + 1)) = 2 ^ (4 * m) * 16 := by rw [Nat.mul_succ, pow_add]; rfl
    simp only [nib] at hnib
    rw [List.range_succ, List.reverse_append, List.reverse_singleton, List.singleton_append, List.map_cons,
      List.foldl_cons, ih (Nat.le_of_succ_le hm), hnib, hpow]
    ring

/-- The 64 nibbles as hexadecimal digits, most significant first, are the value. -/
theorem digitsValue_nibbles (v : Universe) :
    digitsValue 16 ((List.finRange 64).reverse.map fun k => (nib v k).toNat) = v.toNat := by
  have hrange : ((List.finRange 64).reverse.map fun k => (nib v k).toNat) =
      (List.range 64).reverse.map fun k => (fieldAt 4 v k).toNat := by
    rw [← List.map_coe_finRange_eq_range, ← List.map_reverse, List.map_map]
    rfl
  rw [digitsValue, hrange, foldl_nibbles v le_rfl, Nat.mul_zero, Nat.zero_add, Nat.mod_eq_of_lt v.isLt]

/-- R10's way of writing a 256-bit value reads back as the value. -/
theorem parseHex256_printHex256 (v : Universe) : parseHex256 (printHex256 v) = some v := by
  have hread := mapM_hexValue_hexChar ((List.finRange 64).reverse.map (nib v))
  simp only [List.map_map, Function.comp_def] at hread
  rw [parseHex256, printHex256_digits, if_pos (by simp), hread, Option.map_some, digitsValue_nibbles,
    BitVec.ofNat_toNat, BitVec.setWidth_eq]

/-- No character of a printed value separates words or begins a comment. -/
theorem printHex256_chars (v : Universe) : ∀ c ∈ printHex256 v, c ≠ '-' ∧ c ≠ ' ' ∧ c ≠ '\t' := by
  intro c hc
  by_cases h : c = '_'
  · subst h; decide
  · have hdigit : c ∈ (printHex256 v).filter fun c => c != '_' := List.mem_filter.2 ⟨hc, by simpa using h⟩
    rw [printHex256_digits] at hdigit
    obtain ⟨k, -, rfl⟩ := List.mem_map.1 hdigit
    obtain ⟨-, -, hdash, hspace, htab⟩ := hexChar_spec (nib v k)
    exact ⟨hdash, hspace, htab⟩

/-- A printed command holds no dash, so no comment. -/
theorem no_dash_printInstr (i : Instr) : '-' ∉ printInstr i := by
  cases i with
  | loadu v =>
    intro h
    rw [printInstr, List.mem_append] at h
    obtain h | h := h
    · revert h; decide
    · exact (printHex256_chars v _ h).1 rfl
  | nop | step | readu => decide

/-- The words of a printed command. -/
def printedWords : Instr → List (List Char)
  | .nop => [['N', 'O', 'P']]
  | .loadu imm256 => [['L', 'O', 'A', 'D', 'U'], printHex256 imm256]
  | .step => [['S', 'T', 'E', 'P']]
  | .readu => [['R', 'E', 'A', 'D', 'U']]

/-- The text of a value is one word, with or without a space after it. -/
theorem splitWords_printHex256 (v : Universe) {rest : List Char} (hrest : rest = [] ∨ rest = [' ']) :
    splitWords [] (printHex256 v ++ rest) = [printHex256 v] := by
  have hne : (printHex256 v).isEmpty = false := rfl
  rw [splitWords_word _ (fun c hc => (printHex256_chars v c hc).2), List.nil_append]
  obtain rfl | rfl := hrest <;> simp [splitWords, hne]

/-- A printed command is cut into its words, with or without a space after it. -/
theorem splitWords_printInstr (i : Instr) {rest : List Char} (hrest : rest = [] ∨ rest = [' ']) :
    splitWords [] (printInstr i ++ rest) = printedWords i := by
  cases i with
  | loadu v =>
    rw [printedWords, ← splitWords_printHex256 v hrest]
    rfl
  | nop | step | readu => obtain rfl | rfl := hrest <;> rfl

/-- The parser looks at the words of the line before its comment and at nothing else. -/
theorem parseLine_of_printedWords {line : List Char} {i : Instr}
    (h : splitWords [] (stripComment line) = printedWords i) : parseLine line = .ok (some (.instr i)) := by
  rw [parseLine, h]
  cases i with
  | loadu v => simp [printedWords, parseHex256_printHex256]
  | nop | step | readu => rfl

/-- Settles O4: the line before the comment is the printed command, at most a space after it, and so has the command's words. -/
theorem assemblerRoundTrip : Obligations.AssemblerRoundTrip := by
  intro i comment
  constructor
  · apply parseLine_of_printedWords
    rw [stripComment_of_no_dash _ (no_dash_printInstr i), ← List.append_nil (printInstr i)]
    exact splitWords_printInstr i (.inl rfl)
  · have hdash : '-' ∉ printInstr i ++ [' '] := by simp [no_dash_printInstr i]
    have hcut := stripComment_comment (printInstr i ++ [' ']) comment hdash
    apply parseLine_of_printedWords
    rw [show printInstr i ++ [' ', '-', '-'] ++ comment = printInstr i ++ [' '] ++ '-' :: '-' :: comment by simp, hcut]
    exact splitWords_printInstr i (.inr rfl)

end Sys2Proof.Proofs
end

section
/-!
PROOFS. One step of the machine (spec/20_memory.md R37, spec/70_reset_and_hazards.md R113, R122): what the next move in hand makes
of it.
-/

namespace Sys2Proof.Proofs

open Sys2Proof.Machine Sys2Proof.Laws

theorem step_of_idle {s : State} (h : s.pending = []) : step s = .next s := by
  rw [step, takeMove_idle h]

theorem step_of_reset {s : State} {rest : List HostMove} (h : s.pending = .reset :: rest) :
    step s = .next { s with block := Block.reset, pending := rest } := by
  rw [step, takeMove_reset h]
  rfl

theorem step_of_command {s : State} {c : CommandWord} {rest : List HostMove} (h : s.pending = .command c :: rest) :
    step s = exec (decode c) { s with pending := rest } := by
  rw [step, takeMove_command h]

/-- A step performs the next move as the transaction level says: the block becomes the move's, and the move's responses, one for a
command and none for the reset event, are added. -/
theorem step_of_move {s : State} {m : HostMove} {rest : List HostMove} (h : s.pending = m :: rest) :
    step s = .next
      { block := (moveResult m s.block).1, pending := rest, responses := s.responses ++ (moveResult m s.block).2 } := by
  cases m with
  | reset =>
    rw [step_of_reset h, moveResult, List.append_nil]
  | command c =>
    rw [step_of_command h, exec_eq_commit]
    rfl

/-- What a step that answers `t` has done: nothing, the reset event, or a command's transition, committed. -/
theorem step_next_cases {s t : State} (h : step s = .next t) :
    t = s ∨
    (∃ rest, s.pending = .reset :: rest ∧ t = { s with block := Block.reset, pending := rest }) ∨
    (∃ c rest, s.pending = .command c :: rest ∧
      t = ({ s with pending := rest } : State).commit (transact (decode c) s.block)) := by
  obtain ⟨-, hs⟩ | ⟨rest, hp, hs⟩ | ⟨c, rest, hp, hs⟩ := step_cases s <;> rw [hs] at h <;>
    obtain rfl := Host.Outcome.next.inj h
  · exact .inl rfl
  · exact .inr (.inl ⟨rest, hp, rfl⟩)
  · exact .inr (.inr ⟨c, rest, hp, rfl⟩)

/-- A machine after a command is the machine before it with the command's transition committed. -/
theorem eq_commit_of_exec {i : Instr} {s t : State} (h : exec i s = .next t) : t = s.commit (transact i s.block) := by
  rw [exec_eq_commit] at h
  exact (Host.Outcome.next.inj h).symm

/-- Ports that differ only in an operand the block ignores decode alike (R51). -/
theorem decode_congr_of_cmd_ne {op : Opcode} (h : op ≠ 0b01#2) (w w' : Universe) :
    decode { cmd := op, wdata := w } = decode { cmd := op, wdata := w' } := by
  simp only [decode, if_neg h]

/-- Settles O5: the equation of the step for a command in hand. -/
theorem stepRunsTheDecodedCommand : Obligations.StepRunsTheDecodedCommand :=
  fun _ _ _ => step_of_command

/-- Settles O6: the equation of the step for the reset event in hand. -/
theorem resetEventResetsTheBlock : Obligations.ResetEventResetsTheBlock :=
  fun _ _ => step_of_reset

/-- Settles O7: the equation of the step for an idle port. -/
theorem idleStepChangesNothing : Obligations.IdleStepChangesNothing :=
  fun _ => step_of_idle

/-- Settles O8: a command commits one transition with its one response; the reset event is a move without a response. -/
theorem everyCommandCompletes : Obligations.EveryCommandCompletes := by
  refine ⟨fun i s => ⟨_, _, exec_eq_commit i s, commit_responses ..⟩, fun s m rest h => ⟨_, step_of_move h, rfl, ?_⟩⟩
  cases m with
  | reset => exact ⟨fun _ => List.append_nil _, fun hne => absurd rfl hne⟩
  | command c => exact ⟨nofun, fun _ => ⟨_, rfl⟩⟩

/-- Settles O56: the two commands decode alike, and once they are taken the two machines are the same. -/
theorem ignoredOperandHasNoEffect : Obligations.IgnoredOperandHasNoEffect := by
  rintro ⟨_, _, _⟩ ⟨_, _, _⟩ op w w' rest hop rfl rfl h h'
  rw [step_of_command h, step_of_command h', decode_congr_of_cmd_ne hop w w']

end Sys2Proof.Proofs
end

section
/-!
PROOFS. The frame of every command (spec/10_state.md R17, R19, R20): a command leaves the block, writes `U`, or enters a fault, and
each of the three says what stays.
-/

namespace Sys2Proof.Proofs

open Sys2Proof.Machine Sys2Proof.Laws

/-- The command that meets an unfaulted block and the value it stores there: LOADU its operand, STEP the next generation of a
well-formed universe (R17). -/
def Stores (v : Universe) (i : Instr) (b : Block) : Prop :=
  i = .loadu v ∨ i = .step ∧ ∃ p, b.u = some p ∧ wf p = true ∧ v = stepFn p

/-- A command leaves the block as it is, stores a value, or does the fault entry of the condition it found met. -/
theorem transact_block_cases (i : Instr) (b : Block) :
    (transact i b).1 = b ∨
    (b.cause = .noFault ∧ ∃ v, Stores v i b ∧ (transact i b).1 = b.writeU v) ∨
    (b.cause = .noFault ∧ ∃ f, RaisedBy f i b ∧ transact i b = raise f b) := by
  obtain ⟨h, -⟩ | ⟨_, -, -, -, h⟩ | ⟨v, hi, hc, h⟩ | ⟨p, hi, hc, hu, hp, h⟩ | ⟨hi, hc, hu, h⟩ |
    ⟨v, hi, hc, hu, hv, h⟩ := transact_cases i b
  · exact .inl (by rw [h, respond_block])
  · exact .inl (by rw [h, respond_block])
  · exact .inr (.inl ⟨hc, v, .inl hi, by rw [h, respond_block]⟩)
  · exact .inr (.inl ⟨hc, _, .inr ⟨hi, p, hu, hp, rfl⟩, by rw [h, respond_block]⟩)
  · exact .inr (.inr ⟨hc, .uninitialisedUniverse, ⟨hi, loaded_eq_false.2 hu⟩, h⟩)
  · exact .inr (.inr ⟨hc, .malformedUniverse, ⟨hi, v, hu, hv⟩, h⟩)

theorem not_stores_of_nop_or_readu {i : Instr} (hi : i = .nop ∨ i = .readu) (v : Universe) (b : Block) : ¬ Stores v i b := by
  obtain rfl | rfl := hi <;> simp [Stores]

/-- Of NOP and READU only a READU that finds nothing loaded raises a fault (R87, R89). -/
theorem raisedBy_nop_or_readu {f : Fault} {i : Instr} {b : Block} (hi : i = .nop ∨ i = .readu) (h : RaisedBy f i b) :
    i = .readu ∧ f = .uninitialisedUniverse ∧ b.loaded = false := by
  cases f with
  | uninitialisedUniverse =>
    obtain ⟨hi', hl⟩ := h
    obtain rfl | rfl := hi
    · simp at hi'
    · exact ⟨rfl, rfl, hl⟩
  | malformedUniverse =>
    obtain ⟨rfl, -⟩ := h
    simp at hi

/-- LOADU raises no fault (R88). -/
theorem not_raisedBy_loadu (f : Fault) (v : Universe) (b : Block) : ¬ RaisedBy f (.loadu v) b := by
  cases f <;> simp [RaisedBy]

/-- No command clears LOADED (R19). -/
theorem transact_keeps_loaded {b : Block} (h : b.loaded = true) (i : Instr) : (transact i b).1.loaded = true := by
  obtain heq | ⟨-, v, -, heq⟩ | ⟨-, f, -, heq⟩ := transact_block_cases i b
  · rw [heq, h]
  · rw [heq, writeU_loaded]
  · rw [heq, raise_loaded, h]

/-- No command clears CAUSE or replaces the fault it records (R101). -/
theorem transact_keeps_fault {b : Block} (h : b.cause ≠ .noFault) (i : Instr) : (transact i b).1 = b := by
  rw [transact_of_fault h, respond_block]

/-- Settles O13: NOP and READU store nothing, and the one fault among them is READU's own. -/
theorem nopAndReaduFrame : Obligations.NopAndReaduFrame := by
  intro i s t hi h
  obtain rfl := eq_commit_of_exec h
  obtain heq | ⟨-, v, hv, -⟩ | ⟨hc, f, hf, heq⟩ := transact_block_cases i s.block
  · simp [heq]
  · exact absurd hv (not_stores_of_nop_or_readu hi v s.block)
  · obtain ⟨rfl, rfl, hl⟩ := raisedBy_nop_or_readu hi hf
    simp [heq, byteAt_raise, hc, hl, Fault.cause]

/-- Outside the stored 32 bytes no address exists, before or after (R29). -/
theorem byteAt_outside {a : Nat} (h : a < accessAddress ∨ accessAddress + accessSize ≤ a) (b b' : Block) :
    byteAt b a = byteAt b' a := by
  have ha : 32 ≤ a := h.resolve_left (Nat.not_lt_zero a) |>.trans' (by decide)
  rw [byteAt_of_ge b ha, byteAt_of_ge b' ha]

/-- Settles O14: LOADU raises no fault, and a STEP that stores had a well-formed universe and no fault. -/
theorem loaduAndStepFrame : Obligations.LoaduAndStepFrame := by
  refine ⟨fun v s t h => ?loadu, fun s t h => ?step⟩
  case loadu =>
    obtain rfl := eq_commit_of_exec h
    refine ⟨fun a ha => byteAt_outside ha _ _, ?_, rfl, fun hf => by simp [transact_keeps_fault hf],
      fun hl => transact_keeps_loaded hl _, _, rfl⟩
    obtain heq | ⟨-, w, -, heq⟩ | ⟨-, f, hf, -⟩ := transact_block_cases (.loadu v) s.block
    · rw [commit_block, heq]
    · rw [commit_block, heq, writeU_cause]
    · exact absurd hf (not_raisedBy_loadu f v s.block)
  case step =>
    obtain rfl := eq_commit_of_exec h
    refine ⟨fun a ha => byteAt_outside ha _ _, fun hf => by simp [transact_keeps_fault hf], ?_⟩
    obtain heq | ⟨-, v, hv, heq⟩ | ⟨hc, f, -, heq⟩ := transact_block_cases .step s.block
    · simp [heq]
    · obtain hv | ⟨-, p, hu, hp, -⟩ := hv
      · cases hv
      · simp [heq, hu, hp, loaded_eq_true.2 ⟨p, hu⟩]
    · simp [heq, byteAt_raise, hc]

/-- Settles O15: of the three things a command can do only a store changes `U`, and a store leaves no fault. -/
theorem whatWritesTheUniverse : Obligations.WhatWritesTheUniverse := by
  intro s t h hne
  obtain rfl | ⟨rest, hp, -⟩ | ⟨c, rest, hp, rfl⟩ := step_next_cases h
  · exact absurd rfl hne
  · exact .inl ⟨rest, hp⟩
  · obtain heq | ⟨hc, v, hv, heq⟩ | ⟨-, f, -, heq⟩ := transact_block_cases (decode c) s.block
    · simp [heq] at hne
    · refine .inr ⟨hc, by simp [heq, hc], c, rest, hp, ?_⟩
      obtain hi | ⟨hi, p, hu, hwf, rfl⟩ := hv
      · exact .inl ⟨v, hi, by simp [heq]⟩
      · exact .inr ⟨hi, p, hu, hwf, by simp [heq]⟩
    · simp [heq] at hne

/-- Settles O24: no command clears either, and an idle step changes nothing. -/
theorem onlyResetClears : Obligations.OnlyResetClears := by
  intro s t h hreset
  obtain rfl | ⟨rest, hp, -⟩ | ⟨c, rest, -, rfl⟩ := step_next_cases h
  · exact ⟨fun _ => rfl, id⟩
  · exact absurd hp (hreset rest)
  · exact ⟨fun hf => congrArg Block.cause (transact_keeps_fault hf _), fun hl => transact_keeps_loaded hl _⟩

end Sys2Proof.Proofs
end

section
/-!
PROOFS. The invariants (spec/10_state.md R15, R22, R27): every step keeps that CAUSE agrees with `U`, that every response is one the
block can give, and, while no malformed value is loaded, that `U` is well-formed.
-/

namespace Sys2Proof.Proofs

open Sys2Proof.Machine Sys2Proof.Laws

/-- A status word gives back the two fields it was put together from (R22). -/
theorem status_fields : ∀ (code : BitVec 2) (l : Bool),
    statusLoaded (code ++ BitVec.ofBool l) = l ∧ statusCause (code ++ BitVec.ofBool l) = code := by
  decide

/-- Settles O17: the two fields of STATUS are read back, and the codes of the three causes differ. -/
theorem statusIsCauseAndLoaded : Obligations.StatusIsCauseAndLoaded := by
  intro b
  obtain ⟨hl, hc⟩ := status_fields b.cause.code b.loaded
  exact ⟨hl, hc, by cases b.cause <;> decide⟩

/-- Settles O18: READU leaves a loaded block, so the second is the first; the second LOADU finds its value in `U`, or a fault. -/
theorem readTwiceAndLoadTwice : Obligations.ReadTwiceAndLoadTwice := by
  refine ⟨fun b v _ hu => ?_, fun b v => ?_⟩
  · have hblock : (transact .readu b).1 = b := transact_block_of_loaded (.inr rfl) hu
    exact ⟨hblock, by rw [hblock]⟩
  · by_cases hc : b.cause = .noFault
    · have hu : (transact (.loadu v) b).1.u = some v := by rw [transact, transLoadu_block_of_noFault hc, writeU_u]
      exact transact_loadu_block_of_u_eq hu
    · rw [transact_keeps_fault hc, transact_keeps_fault hc]

/-- The invariant of R27, cause by cause. -/
theorem blockInv_iff (b : Block) : Safety.blockInv b = true ↔
    b.cause = .noFault ∨ (b.cause = .uninitialisedUniverse ∧ b.u = none) ∨
      (b.cause = .malformedUniverse ∧ ∃ v, b.u = some v ∧ wf v = false) := by
  obtain ⟨u, cause⟩ := b
  cases cause <;> cases u <;> simp [Safety.blockInv]

/-- A block that meets the invariant has one of the four status values (R22). -/
theorem status_mem_of_blockInv {b : Block} (h : Safety.blockInv b = true) : b.status ∈ Safety.statusValues := by
  obtain hc | ⟨hc, hu⟩ | ⟨hc, v, hu, -⟩ := (blockInv_iff b).1 h
  · rw [status_noFault hc]
    cases b.loaded <;> decide
  · rw [status_uninitialised hc hu]
    decide
  · rw [status_malformed hc hu]
    decide

/-- A fault entry meets the invariant: what the command found is what R27 says of its cause. -/
theorem blockInv_raise {f : Fault} {i : Instr} {b : Block} (h : RaisedBy f i b) : Safety.blockInv (raise f b).1 = true := by
  rw [blockInv_iff]
  cases f with
  | uninitialisedUniverse =>
    obtain ⟨-, hl⟩ := h
    exact .inr (.inl ⟨rfl, loaded_eq_false.1 hl⟩)
  | malformedUniverse =>
    obtain ⟨-, hu⟩ := h
    exact .inr (.inr ⟨rfl, hu⟩)

theorem blockInv_transact {b : Block} (h : Safety.blockInv b = true) (i : Instr) :
    Safety.blockInv (transact i b).1 = true := by
  obtain heq | ⟨hc, v, -, heq⟩ | ⟨-, f, hf, heq⟩ := transact_block_cases i b
  · rw [heq, h]
  · rw [heq, blockInv_iff]
    exact .inl hc
  · rw [heq, blockInv_raise hf]

/-- Data stands only beside the status 0b001: only a READU that found a universe and no fault answers with any (R52). -/
theorem transact_data_none_or_status (i : Instr) (b : Block) :
    (transact i b).2.data = none ∨ (transact i b).2.status = 0b001#3 := by
  by_cases h : i = .readu ∧ (transact i b).1.cause = .noFault
  · obtain ⟨rfl, hc⟩ := h
    obtain ⟨v, hu, heq⟩ := transReadu_of_noFault_after hc
    rw [transact, heq, respond_block] at hc
    exact .inr (by rw [transact, heq, respond_status, status_noFault hc, loaded_eq_true.2 ⟨v, hu⟩, if_pos rfl])
  · exact .inl (transact_data_eq_none h)

/-- A block that meets the invariant gives only responses of R22 and R52. -/
theorem responseInv_transact {b : Block} (h : Safety.blockInv b = true) (i : Instr) :
    Safety.responseInv (transact i b).2 = true := by
  have hstatus : (transact i b).2.status ∈ Safety.statusValues := by
    rw [transact_status]
    exact status_mem_of_blockInv (blockInv_transact h i)
  simpa [Safety.responseInv, hstatus] using transact_data_none_or_status i b

/-- Settles O27: a command keeps both parts of the invariant, and the reset event gives an unfaulted block and no response. -/
theorem stepKeepsTheInvariant : Obligations.StepKeepsTheInvariant := by
  intro s t hinv h
  obtain ⟨hblock, hresp⟩ := Bool.and_eq_true_iff.1 hinv
  obtain rfl | ⟨rest, -, rfl⟩ | ⟨c, rest, -, rfl⟩ := step_next_cases h
  · exact hinv
  · exact Bool.and_eq_true_iff.2 ⟨rfl, hresp⟩
  · refine Bool.and_eq_true_iff.2 ⟨blockInv_transact hblock _, ?_⟩
    rw [commit_responses, List.all_append, hresp, Bool.true_and, List.all_cons, responseInv_transact hblock,
      List.all_nil, Bool.and_true]

/-- Settles O28: the reset block has no fault, and no response has been given. -/
theorem resetMeetsTheInvariant : Obligations.ResetMeetsTheInvariant :=
  fun _ => Bool.and_eq_true_iff.2 ⟨(blockInv_iff _).2 (.inl blockReset_cause), rfl⟩

theorem universeWf_iff (b : Block) : Safety.universeWf b = true ↔ ∀ v, b.u = some v → wf v = true := by
  obtain ⟨_ | v, _⟩ := b <;> simp [Safety.universeWf]

/-- A store keeps the universe well-formed: LOADU's operand by the host's care, STEP's because `EQ3` gives only zeros and ones. -/
theorem wf_of_stores {c : CommandWord} {v : Universe} {b : Block} (hm : Safety.moveWf (.command c) = true)
    (h : Stores v (decode c) b) : wf v = true := by
  obtain hi | ⟨-, p, -, -, rfl⟩ := h
  · simpa [Safety.moveWf, hi] using hm
  · exact wf_eq3 (merged p)

/-- Where the universe is well-formed the only fault is that none is loaded (R83). -/
theorem loaded_eq_false_of_raisedBy {f : Fault} {i : Instr} {b : Block} (hwf : Safety.universeWf b = true)
    (h : RaisedBy f i b) : b.loaded = false := by
  cases f with
  | uninitialisedUniverse =>
    obtain ⟨-, hl⟩ := h
    exact hl
  | malformedUniverse =>
    obtain ⟨-, v, hu, hv⟩ := h
    simp [(universeWf_iff b).1 hwf v hu] at hv

/-- A command other than LOADU of a malformed value keeps `U` well-formed, and keeps a loaded block unfaulted (R15, R83). -/
theorem transact_keeps_universeWf {c : CommandWord} {b : Block} (hm : Safety.moveWf (.command c) = true)
    (hwf : Safety.universeWf b = true) :
    Safety.universeWf (transact (decode c) b).1 = true ∧
      (b.cause = .noFault → b.loaded = true → (transact (decode c) b).1.cause = .noFault) := by
  obtain heq | ⟨-, v, hv, heq⟩ | ⟨-, f, hf, heq⟩ := transact_block_cases (decode c) b
  · rw [heq]
    exact ⟨hwf, fun hc _ => hc⟩
  · rw [heq]
    exact ⟨wf_of_stores hm hv, fun hc _ => hc⟩
  · rw [heq]
    exact ⟨hwf, fun _ hl => by simp [loaded_eq_false_of_raisedBy hwf hf] at hl⟩

/-- Settles O29: the command in hand keeps the universe well-formed; the reset event leaves none, and no fault. -/
theorem wellFormednessIsKept : Obligations.WellFormednessIsKept := by
  intro s t hwf hmoves h
  obtain rfl | ⟨rest, hp, rfl⟩ | ⟨c, rest, hp, rfl⟩ := step_next_cases h
  · exact ⟨hwf, fun hc _ => hc, fun _ hl _ => hl⟩
  · exact ⟨rfl, fun _ _ => rfl, fun _ _ hreset => absurd hp (hreset rest)⟩
  · obtain ⟨hwf', hcause⟩ := transact_keeps_universeWf (hmoves _ _ hp) hwf
    exact ⟨hwf', hcause, fun _ hl _ => transact_keeps_loaded hl _⟩

end Sys2Proof.Proofs
end

section
/-!
PROOFS. Runs (spec/42_host_commands.md R94, spec/20_memory.md R37): the machine performs the moves in hand one after another, and
what a run of commands keeps.
-/

namespace Sys2Proof.Proofs

open Sys2Proof.Machine Sys2Proof.Laws

theorem run_succ_of_step {s t : State} (h : step s = .next t) (k : Nat) :
    Host.Core.run core (k + 1) s = Host.Core.run core k t := by
  have hcore : core.step s = .next t := h
  simp only [Host.Core.run, hcore]

/-- Settles O32: by induction on the moves, each step performing the first one in hand. -/
theorem machinePerformsTheRun : Obligations.MachinePerformsTheRun := by
  intro moves rest s h
  induction moves generalizing s with
  | nil =>
    obtain ⟨_, _, _⟩ := s
    cases h
    rw [runMoves, List.append_nil]
    rfl
  | cons m ms ih =>
    rw [List.length_cons, run_succ_of_step (step_of_move h), ih _ rfl, runMoves, List.append_assoc]

/-- Moves executed in two parts: the second part starts from the block the first leaves (R37). -/
theorem runMoves_append (ms ns : List HostMove) (b : Block) :
    runMoves (ms ++ ns) b =
      ((runMoves ns (runMoves ms b).1).1, (runMoves ms b).2 ++ (runMoves ns (runMoves ms b).1).2) := by
  induction ms generalizing b with
  | nil => rfl
  | cons m ms ih => simp [runMoves, ih]

/-- A command in hand gives its transition's block and its one response, and the others go on from there. -/
theorem runMoves_command_cons (c : CommandWord) (ms : List HostMove) (b : Block) :
    runMoves (.command c :: ms) b =
      ((runMoves ms (transact (decode c) b).1).1, (transact (decode c) b).2 :: (runMoves ms (transact (decode c) b).1).2) :=
  rfl

/-- The move that presents a command executes that command. -/
theorem runMoves_commandMove_cons (i : Instr) (ms : List HostMove) (b : Block) :
    runMoves (commandMove i :: ms) b =
      ((runMoves ms (transact i b).1).1, (transact i b).2 :: (runMoves ms (transact i b).1).2) := by
  rw [commandMove, runMoves_command_cons, decode_encode]

theorem runMoves_commandMove (i : Instr) (b : Block) :
    runMoves [commandMove i] b = ((transact i b).1, [(transact i b).2]) :=
  runMoves_commandMove_cons i [] b

/-- What every command of a list keeps of the block, the list keeps, and what it then says of its response holds of all. -/
theorem runMoves_commands_keep {cs : List CommandWord} {Inv : Block → Prop} {P : Response → Prop}
    (h : ∀ c ∈ cs, ∀ b, Inv b → Inv (transact (decode c) b).1 ∧ P (transact (decode c) b).2) {b : Block} (hb : Inv b) :
    Inv (runMoves (cs.map .command) b).1 ∧ ∀ r ∈ (runMoves (cs.map .command) b).2, P r := by
  induction cs generalizing b with
  | nil => exact ⟨hb, nofun⟩
  | cons c cs ih =>
    obtain ⟨hblock, hresp⟩ := h c List.mem_cons_self b hb
    obtain ⟨hlast, hall⟩ := ih (fun c hc => h c (List.mem_cons_of_mem _ hc)) hblock
    rw [List.map_cons, runMoves_command_cons]
    exact ⟨hlast, List.forall_mem_cons.2 ⟨hresp, hall⟩⟩

/-- Commands give one response each (R52). -/
theorem runMoves_commands_length (cs : List CommandWord) (b : Block) :
    (runMoves (cs.map .command) b).2.length = cs.length := by
  induction cs generalizing b with
  | nil => rfl
  | cons c cs ih => rw [List.map_cons, runMoves_command_cons, List.length_cons, ih, List.length_cons]

/-- A faulted state is read as the fault of its cause (R101, log entry 3). -/
theorem verdict_of_fault {s : State} (h : s.block.cause ≠ .noFault) :
    ∃ f : Fault, f.cause = s.block.cause ∧ Safety.verdict s = .fault f := by
  match hc : s.block.cause with
  | .noFault => exact absurd hc h
  | .uninitialisedUniverse => exact ⟨.uninitialisedUniverse, rfl, by rw [Safety.verdict, hc]⟩
  | .malformedUniverse => exact ⟨.malformedUniverse, rfl, by rw [Safety.verdict, hc]⟩

/-- A faulted block answers commands with its status and no data, one by one, and stays (R101). -/
theorem runMoves_of_fault {b : Block} (h : b.cause ≠ .noFault) (cs : List CommandWord) :
    runMoves (cs.map .command) b = (b, List.replicate cs.length { status := b.status, data := none }) := by
  have hkeep : ∀ c ∈ cs, ∀ b', b' = b →
      (transact (decode c) b').1 = b ∧ (transact (decode c) b').2 = { status := b.status, data := none } := by
    rintro c - _ rfl
    rw [transact_of_fault h]
    exact ⟨rfl, rfl⟩
  obtain ⟨hblock, hall⟩ := runMoves_commands_keep (Inv := (· = b)) (P := (· = _)) hkeep rfl
  exact Prod.ext hblock (List.eq_replicate_iff.2 ⟨runMoves_commands_length cs b, hall⟩)

/-- Settles O23: the guard of R101 for one command, for a list of them, and in the three-outcome reading. -/
theorem faultedBlockAbsorbs : Obligations.FaultedBlockAbsorbs :=
  ⟨fun i _ hc => exec_of_fault hc i, fun cs _ hc => runMoves_of_fault hc cs,
    fun _ hc => ⟨beq_false_of_ne hc, verdict_of_fault hc⟩⟩

/-- On a block with nothing loaded a command other than LOADU loads nothing and shows nothing. -/
theorem transact_of_not_loaded {c : CommandWord} {b : Block} (hc : c.cmd ≠ 0b01#2) (hu : b.u = none) :
    (transact (decode c) b).1.u = none ∧ (transact (decode c) b).2.data = none := by
  have hnot : ∀ v, decode c ≠ .loadu v := by
    obtain ⟨-, hd⟩ | ⟨h, -⟩ | ⟨-, hd⟩ | ⟨-, hd⟩ := decode_cases c
    case inr.inl => exact absurd h hc
    all_goals simp [hd]
  constructor
  · obtain heq | ⟨-, v, hv | ⟨-, p, hp, -⟩, -⟩ | ⟨-, f, -, heq⟩ := transact_block_cases (decode c) b
    · rw [heq, hu]
    · exact absurd hv (hnot v)
    · simp [hu] at hp
    · rw [heq, raise_u, hu]
  · apply transact_data_eq_none
    rintro ⟨hi, hcause⟩
    rw [hi] at hcause
    obtain ⟨v, hv, -⟩ := transReadu_of_noFault_after hcause
    simp [hu] at hv

/-- Settles O26: after the reset event nothing is loaded, and commands other than LOADU keep it so. -/
theorem resetForgetsTheUniverse : Obligations.ResetForgetsTheUniverse := by
  intro b cs hcs
  have hkeep := fun c hc b hu => transact_of_not_loaded (b := b) (hcs c hc) hu
  obtain ⟨-, hall⟩ := runMoves_commands_keep (Inv := fun b => b.u = none) (P := fun r => r.data = none) hkeep blockReset_u
  exact hall

/-- Every move in hand of a reachable machine leads to a reachable machine, so its whole run does. -/
theorem reachable_of_run {moves : List HostMove} {s : State} (hs : Safety.Reachable s) (h : s.pending = moves) :
    ∃ t, Safety.Reachable t ∧ t.block = (runMoves moves s.block).1 := by
  induction moves generalizing s with
  | nil => exact ⟨s, hs, rfl⟩
  | cons m ms ih => exact ih (.step _ _ hs (step_of_move h)) rfl

/-- The block any run leaves is the block of a reachable machine. -/
theorem reachable_runFromReset (moves : List HostMove) :
    ∃ t, Safety.Reachable t ∧ t.block = (runFromReset moves).1 :=
  reachable_of_run (.reset moves) rfl

/-- A run that ends with each of the four status values: nothing, a LOADU, a READU with nothing loaded, a STEP on a malformed
value. -/
def statusRuns : List (List HostMove) :=
  [[], [commandMove (.loadu 0#256)], [commandMove .readu], [commandMove (.loadu 2#256), commandMove .step]]

theorem statusRuns_status : statusRuns.map (fun moves => (runFromReset moves).1.status) = Safety.statusValues := by
  decide

/-- Settles O30: reachable machines meet the invariant, which allows four values, and a run shows each of them. -/
theorem reachableStatusValues : Obligations.ReachableStatusValues := by
  refine ⟨fun s hs => ?_, fun st hst => ?_⟩
  · have hinv := reachable_of_inv (Safety.inv · = true) resetMeetsTheInvariant stepKeepsTheInvariant hs
    obtain ⟨hblock, -⟩ := Bool.and_eq_true_iff.1 hinv
    exact status_mem_of_blockInv hblock
  · rw [← statusRuns_status] at hst
    obtain ⟨moves, -, rfl⟩ := List.mem_map.1 hst
    obtain ⟨t, ht, hblock⟩ := reachable_runFromReset moves
    exact ⟨t, ht, by rw [hblock]⟩

end Sys2Proof.Proofs
end

section
/-!
PROOFS. Reads after writes (spec/20_memory.md R37): NOPs and READUs leave what a LOADU or a STEP wrote, and a READU shows it.
-/

namespace Sys2Proof.Proofs

open Sys2Proof.Machine Sys2Proof.Laws

/-- READU on a loaded, unfaulted block: the block stays and its universe is shown (R89). -/
theorem transact_readu_of_loaded (v : Universe) :
    transact .readu { u := some v, cause := .noFault } =
      ({ u := some v, cause := .noFault }, { status := 0b001#3, data := some v }) := by
  rw [transact, transReadu_of_some rfl rfl, respond, status_of_loaded]

/-- LOADU on an unfaulted block (R88). -/
theorem transact_loadu_of_noFault {b : Block} (h : b.cause = .noFault) (v : Universe) :
    transact (.loadu v) b = ({ u := some v, cause := .noFault }, { status := 0b001#3, data := none }) := by
  obtain ⟨_, _⟩ := b
  cases h
  rw [transact, transLoadu_of_noFault rfl]
  exact congrArg (fun st => (_, Response.mk st none)) (status_of_loaded v)

/-- STEP on a well-formed universe (R82). -/
theorem transact_step_of_wf {p : Universe} (h : wf p = true) :
    transact .step { u := some p, cause := .noFault } =
      ({ u := some (stepFn p), cause := .noFault }, { status := 0b001#3, data := none }) := by
  rw [transact, transStep_of_wf rfl rfl h]
  exact congrArg (fun st => (_, Response.mk st none)) (status_of_loaded (stepFn p))

/-- NOPs and READUs leave a loaded block as it is. -/
theorem runMoves_block_of_loaded {cs : List CommandWord} (hcs : ∀ c ∈ cs, decode c = .nop ∨ decode c = .readu)
    {b : Block} {v : Universe} (hu : b.u = some v) : (runMoves (cs.map .command) b).1 = b := by
  induction cs with
  | nil => rfl
  | cons c cs ih =>
    obtain ⟨hc, hcs⟩ := List.forall_mem_cons.1 hcs
    rw [List.map_cons, runMoves_command_cons, transact_block_of_loaded hc hu, ih hcs]

/-- Where a command has written `v`, NOPs and READUs after it leave `v`, and a READU after them shows it. -/
theorem runMoves_read_after_write {ms : List HostMove} {i : Instr} {v : Universe} {b : Block} {cs : List CommandWord}
    (hw : (transact i (runMoves ms b).1).1 = { u := some v, cause := .noFault })
    (hcs : ∀ c ∈ cs, decode c = .nop ∨ decode c = .readu) :
    (runMoves (ms ++ [commandMove i] ++ cs.map .command ++ [commandMove .readu]) b).1 = { u := some v, cause := .noFault } ∧
    (runMoves (ms ++ [commandMove i] ++ cs.map .command ++ [commandMove .readu]) b).2.getLast? =
      some { status := 0b001#3, data := some v } := by
  simp only [runMoves_append, runMoves_commandMove, hw, runMoves_block_of_loaded hcs (b := ⟨some v, .noFault⟩) rfl,
    transact_readu_of_loaded, List.getLast?_concat, and_self]

/-- The machine performs such moves and stands with the others in hand. -/
theorem run_read_after_write {ms rest : List HostMove} {i : Instr} {v : Universe} {s : State} {cs : List CommandWord}
    (h : s.pending = ms ++ [commandMove i] ++ cs.map .command ++ [commandMove .readu] ++ rest)
    (hw : (transact i (runMoves ms s.block).1).1 = { u := some v, cause := .noFault })
    (hcs : ∀ c ∈ cs, decode c = .nop ∨ decode c = .readu) :
    ∃ t : State, Host.Core.run core (ms.length + 1 + cs.length + 1) s = .next t ∧ t.pending = rest ∧
      t.block = { u := some v, cause := .noFault } ∧
      t.responses.getLast? = some { status := 0b001#3, data := some v } := by
  obtain ⟨hblock, hlast⟩ := runMoves_read_after_write (b := s.block) hw hcs
  have hrun := machinePerformsTheRun _ rest s h
  simp only [List.length_append, List.length_map, List.length_singleton] at hrun
  exact ⟨_, hrun, rfl, hblock, by rw [List.getLast?_append, hlast, Option.some_or]⟩

/-- Settles O33: a run of two lists is the run of the first and then of the second; a LOADU and a STEP are each a write, and
what follows is the same. -/
theorem sequentialComposition : Obligations.SequentialComposition := by
  refine ⟨fun ms ns rest s h => ?_, fun ms rest cs v s h hc hcs => ?_, fun ms rest cs p s h hb hp hcs => ?_⟩
  · have hall := machinePerformsTheRun (ms ++ ns) rest s h
    refine ⟨_, machinePerformsTheRun ms (ns ++ rest) s (by rw [h, List.append_assoc]), rfl, rfl, ?_⟩
    rw [← List.length_append, hall, runMoves_append, List.append_assoc]
  · exact run_read_after_write h (by rw [transact_loadu_of_noFault hc]) hcs
  · exact run_read_after_write h (by rw [hb, transact_step_of_wf hp]) hcs

end Sys2Proof.Proofs
end

section
/-!
PROOFS. Primitives that only move fields (spec/40_vector_primitives.md R63, spec/41_step.md R79, R86): the rotations and the reversals
are each a map of rows and a map of columns, and their laws are laws of those maps.
-/

namespace Sys2Proof.Proofs

open Sys2Proof.Machine Sys2Proof.Laws

/-- `T` moves whole fields: row `r`, column `c` of its result is row `ρ r`, column `γ c` of its operand. -/
def MovesFields (T : Universe → Universe) (ρ γ : Fin 8 → Fin 8) : Prop :=
  ∀ v r c, field (T v) r c = field v (ρ r) (γ c)

/-- `T` moves every row by `a` and every column by `b`, round the torus. -/
def Translates (T : Universe → Universe) (a b : Fin 8) : Prop :=
  ∀ v r c, field (T v) r c = field v (r + a) (c + b)

theorem Translates.movesFields {T : Universe → Universe} {a b : Fin 8} (h : Translates T a b) :
    MovesFields T (· + a) (· + b) := h

theorem rotRowUp_translates : Translates rotRowUp 1 0 := fun v r c => by simp

theorem rotRowDn_translates : Translates rotRowDn (-1) 0 := fun v r c => by simp [sub_eq_add_neg]

theorem rotColL_translates : Translates rotColL 0 1 := fun v r c => by simp

theorem rotColR_translates : Translates rotColR 0 (-1) := fun v r c => by simp [sub_eq_add_neg]

/-- Each of the four rotations is a translation of the torus. -/
theorem exists_translates {rot : Universe → Universe} (h : rot ∈ [rotRowUp, rotRowDn, rotColL, rotColR]) :
    ∃ a b, Translates rot a b := by
  simp only [List.mem_cons, List.not_mem_nil, or_false] at h
  obtain rfl | rfl | rfl | rfl := h
  · exact ⟨_, _, rotRowUp_translates⟩
  · exact ⟨_, _, rotRowDn_translates⟩
  · exact ⟨_, _, rotColL_translates⟩
  · exact ⟨_, _, rotColR_translates⟩

theorem Translates.comp {S T : Universe → Universe} {a b a' b' : Fin 8} (hS : Translates S a b) (hT : Translates T a' b') :
    Translates (S ∘ T) (a + a') (b + b') := fun v r c => by
  rw [Function.comp_apply, hS, hT, add_assoc, add_assoc]

/-- Translations by opposite amounts undo each other. -/
theorem Translates.eq_self {S T : Universe → Universe} {a b a' b' : Fin 8} (hS : Translates S a b) (hT : Translates T a' b')
    (ha : a + a' = 0) (hb : b + b' = 0) (v : Universe) : S (T v) = v :=
  ext_field fun r c => by
    have h := hS.comp hT v r c
    rwa [ha, hb, add_zero, add_zero] at h

/-- Translations commute. -/
theorem Translates.commute {S T : Universe → Universe} {a b a' b' : Fin 8} (hS : Translates S a b)
    (hT : Translates T a' b') (v : Universe) : S (T v) = T (S v) :=
  ext_field fun r c => by rw [hS, hT, hT, hS, add_right_comm r, add_right_comm c]

theorem Translates.iterated {T : Universe → Universe} {a b : Fin 8} (h : Translates T a b) (n : Nat) :
    Translates (iterate T n) (n • a) (n • b) := by
  induction n with
  | zero => exact fun v r c => by simp [iterate]
  | succ n ih =>
    rw [succ_nsmul, succ_nsmul]
    exact ih.comp h

/-- Eight times any amount is once round the torus. -/
theorem eight_nsmul_fin8 : ∀ a : Fin 8, 8 • a = 0 := by
  decide

theorem Translates.eight_times {T : Universe → Universe} {a b : Fin 8} (h : Translates T a b) (v : Universe) :
    iterate T 8 v = v :=
  ext_field fun r c => by
    have h8 := h.iterated 8 v r c
    rwa [eight_nsmul_fin8, eight_nsmul_fin8, add_zero, add_zero] at h8

/-- The flat cell whose nibble comes to flat cell `k`. -/
def flatSource (ρ γ : Fin 8 → Fin 8) (k : Fin 64) : Fin 64 :=
  flatIndex (ρ (rowOf k)) (γ (colOf k))

theorem MovesFields.nib_eq {T : Universe → Universe} {ρ γ : Fin 8 → Fin 8} (h : MovesFields T ρ γ) (v : Universe)
    (k : Fin 64) : nib (T v) k = nib v (flatSource ρ γ k) := by
  rw [nib_eq_field, h, field_eq_nib, flatSource]

/-- Injective on rows and on columns, injective on cells, so a bijection of the 64. -/
theorem flatSource_bijective {ρ γ : Fin 8 → Fin 8} (hρ : ρ.Injective) (hγ : γ.Injective) :
    (flatSource ρ γ).Bijective := by
  refine Finite.injective_iff_bijective.1 fun k k' h => ?_
  have hrow : rowOf k = rowOf k' := hρ (by simpa [flatSource] using congrArg rowOf h)
  have hcol : colOf k = colOf k' := hγ (by simpa [flatSource] using congrArg colOf h)
  rw [← flatIndex_rowOf_colOf k, hrow, hcol, flatIndex_rowOf_colOf]

/-- A value whose nibbles are those of another in another order is well-formed when the other is. -/
theorem wf_eq_of_nib_permuted {v v' : Universe} {σ : Fin 64 → Fin 64} (hσ : σ.Bijective)
    (h : ∀ k, nib v' k = nib v (σ k)) : wf v' = wf v := by
  rw [Bool.eq_iff_iff, wf_iff, wf_iff]
  simp only [h]
  exact (hσ.surjective.forall (p := fun k => nib v k = 0#4 ∨ nib v k = 1#4)).symm

/-- Nor does the order of the nibbles change how many are live. -/
theorem population_eq_of_nib_permuted {v v' : Universe} {σ : Fin 64 → Fin 64} (hσ : σ.Bijective)
    (h : ∀ k, nib v' k = nib v (σ k)) : population v' = population v := by
  have hperm : ((List.finRange 64).map σ).Perm (List.finRange 64) :=
    Equiv.Perm.map_finRange_perm (Equiv.ofBijective σ hσ)
  calc population v' = (List.finRange 64).countP fun k => nib v (σ k) == 1#4 := by simp only [population, h]
    _ = ((List.finRange 64).map σ).countP fun k => nib v k == 1#4 := by rw [List.countP_map]; rfl
    _ = population v := hperm.countP_eq _

/-- Settles O37: the four rotations are translations by one row or one column, forwards or back. -/
theorem rotationLaws : Obligations.RotationLaws := by
  refine ⟨fun v => ⟨?_, ?_, ?_, ?_⟩, fun row hrow col hcol v => ?_, fun rot hrot v => ?_, fun rot hrot => ?_⟩
  · exact rotRowUp_translates.eq_self rotRowDn_translates rfl rfl v
  · exact rotRowDn_translates.eq_self rotRowUp_translates rfl rfl v
  · exact rotColL_translates.eq_self rotColR_translates rfl rfl v
  · exact rotColR_translates.eq_self rotColL_translates rfl rfl v
  · obtain ⟨_, _, hr⟩ := exists_translates (List.mem_append_left [rotColL, rotColR] hrow)
    obtain ⟨_, _, hc⟩ := exists_translates (List.mem_append_right [rotRowUp, rotRowDn] hcol)
    exact hr.commute hc v
  · obtain ⟨_, _, h⟩ := exists_translates hrot
    exact h.eight_times v
  · obtain ⟨a, b, h⟩ := exists_translates hrot
    have hσ := flatSource_bijective (add_left_injective a) (add_left_injective b)
    have hnib := h.movesFields.nib_eq
    exact ⟨⟨_, hσ, hnib⟩, fun v => wf_eq_of_nib_permuted hσ (hnib v), fun v => population_eq_of_nib_permuted hσ (hnib v)⟩

end Sys2Proof.Proofs
end

section
/-!
PROOFS. The width of the adder (spec/40_vector_primitives.md R66): where no field sum reaches 16 no bit crosses a field boundary, so
neither does one cross the boundary of any wider lane.
-/

namespace Sys2Proof.Proofs

open Sys2Proof.Machine Sys2Proof.Laws

/-- No field sum reaches 16. -/
def NoFieldCarries (a b : Universe) : Prop :=
  ∀ k : Fin 64, (nib a k).toNat + (nib b k).toNat < 16

/-- The low `m` fields of the field sum are, as a number, the sum of the low `m` fields. -/
theorem add4_mod {a b : Universe} (h : NoFieldCarries a b) {m : Nat} (hm : m ≤ 64) :
    (add4 a b).toNat % 2 ^ (4 * m) = a.toNat % 2 ^ (4 * m) + b.toNat % 2 ^ (4 * m) := by
  induction m with
  | zero => simp [Nat.mod_one]
  | succ m ih =>
    have hnib : (nib (add4 a b) ⟨m, hm⟩).toNat = (nib a ⟨m, hm⟩).toNat + (nib b ⟨m, hm⟩).toNat := by
      rw [nib_add4, BitVec.toNat_add, Nat.mod_eq_of_lt (h ⟨m, hm⟩)]
    have hstep := fun v => toNat_mod_nibbles v ⟨m, hm⟩
    simp only at hstep
    rw [hstep, hstep, hstep, hnib, ih (Nat.le_of_succ_le hm)]
    ring

/-- The number of a field of any width, from what lies below its two ends. -/
theorem toNat_mod_lanes (w : Nat) (v : Universe) (k : Nat) :
    v.toNat % 2 ^ (w * (k + 1)) = v.toNat % 2 ^ (w * k) + 2 ^ (w * k) * (fieldAt w v k).toNat := by
  rw [Nat.mul_succ, pow_add, Nat.mod_mul]
  simp [fieldAt, BitVec.extractLsb'_toNat, Nat.shiftRight_eq_div_pow]

/-- In every lane of whole fields the field sum is the lane's own sum. -/
theorem fieldAt_add4 {a b : Universe} (h : NoFieldCarries a b) {j k : Nat} (hk : j * (k + 1) ≤ 64) :
    fieldAt (4 * j) (add4 a b) k = fieldAt (4 * j) a k + fieldAt (4 * j) b k := by
  have hlow : j * k ≤ 64 := (Nat.mul_le_mul_left j k.le_succ).trans hk
  have hsum : (fieldAt (4 * j) (add4 a b) k).toNat = (fieldAt (4 * j) a k).toNat + (fieldAt (4 * j) b k).toNat := by
    have hall := add4_mod h hk
    rw [← mul_assoc, toNat_mod_lanes, toNat_mod_lanes, toNat_mod_lanes, mul_assoc, add4_mod h hlow] at hall
    refine Nat.eq_of_mul_eq_mul_left (Nat.two_pow_pos (4 * (j * k))) ?_
    rw [Nat.mul_add]
    omega
  apply BitVec.eq_of_toNat_eq
  rw [BitVec.toNat_add, ← hsum, Nat.mod_eq_of_lt (BitVec.isLt _)]

theorem add4_eq_addLanes {a b : Universe} (h : NoFieldCarries a b) {j n : Nat} (hj : 0 < j) (hn : j * n = 64) :
    add4 a b = addLanes (4 * j) n a b := by
  have hw : 4 * j * n = 256 := by rw [mul_assoc, hn]; rfl
  refine ext_fieldAt hw (by omega) fun k => ?_
  rw [fieldAt_addLanes hw.le, fieldAt_add4 h (hn ▸ Nat.mul_le_mul_left j k.isLt)]

theorem add4_eq_add {a b : Universe} (h : NoFieldCarries a b) : add4 a b = a + b := by
  have hsum : (add4 a b).toNat = a.toNat + b.toNat := by
    have hall := add4_mod h le_rfl
    rwa [Nat.mod_eq_of_lt (add4 a b).isLt, Nat.mod_eq_of_lt a.isLt, Nat.mod_eq_of_lt b.isLt] at hall
  apply BitVec.eq_of_toNat_eq
  rw [BitVec.toNat_add, ← hsum, Nat.mod_eq_of_lt (add4 a b).isLt]

/-- 15 + 1 carries into the next field of the 256-bit sum, and is lost in `ADD4`. -/
theorem add4_ne_add_of_carry : add4 15#256 1#256 ≠ 15#256 + 1#256 := by
  intro h
  have hnib := congrArg (nib · 1) h
  rw [nib_add4] at hnib
  revert hnib
  decide

/-- Settles O40: lanes of 2, 4, 8 and 16 fields, the whole word, and one carry that makes the difference. -/
theorem adderWidthUnobservable : Obligations.AdderWidthUnobservable :=
  ⟨fun _ _ h =>
    ⟨add4_eq_add h, add4_eq_addLanes (j := 2) h (by decide) rfl, add4_eq_addLanes (j := 4) h (by decide) rfl,
      add4_eq_addLanes (j := 8) h (by decide) rfl, add4_eq_addLanes (j := 16) h (by decide) rfl⟩,
    ⟨_, _, add4_ne_add_of_carry⟩⟩

end Sys2Proof.Proofs
end

section
/-!
PROOFS. The gather (spec/41_step.md R74, R79): a sum of views depends on which views are summed and on nothing else.
-/

namespace Sys2Proof.Proofs

open Sys2Proof.Machine Sys2Proof.Laws

/-- The gathered sum does not depend on the order of its summands. -/
theorem gather_eq_of_perm {l m : List Universe} (h : l.Perm m) : gather l = gather m :=
  ext_field fun r c => by rw [field_gather, field_gather, (h.map _).sum_eq]

/-- Nor on their grouping: a sum tree has the value of the gathered sum of its leaves. -/
theorem sumTreeValue_eq_gather (t : SumTree) : sumTreeValue t = gather (sumTreeLeaves t) :=
  ext_field fun r c => by rw [field_sumTreeValue, field_gather]

/-- Nor on an all-zero summand (D7). -/
theorem gather_zero_cons (l : List Universe) : gather (0#256 :: l) = gather l :=
  ext_field fun r c => by
    rw [field_gather, field_gather, List.map_cons, List.sum_cons, field_eq_nib, nib_zero, BitVec.zero_add]

theorem gather_append (l m : List Universe) : gather (l ++ m) = add4 (gather l) (gather m) :=
  ext_field fun r c => by simp [field_gather]

/-- Settles O44: every such sum is the gathered sum of a list that holds the views in some order. -/
theorem orderOfSummandsImmaterial : Obligations.OrderOfSummandsImmaterial := by
  refine ⟨fun p t h => ?_, fun p t h => ?_, fun p l h => ⟨gather_eq_of_perm h, ?_⟩, fun p l m h => ?_⟩
  · rw [sumTreeValue_eq_gather, gather_eq_of_perm h, count]
  · rw [sumTreeValue_eq_gather, gather_eq_of_perm h, gather_zero_cons, count]
  · exact (gather_zero_cons l).trans (gather_eq_of_perm h)
  · rw [← gather_append, gather_eq_of_perm h, count]

/-- With the two row rotations swapped the same eight views come in another order (R79). -/
theorem viewsWith_swapRows_perm (up dn left right : Universe → Universe) (p : Universe) :
    (viewsWith dn up left right p).Perm (viewsWith up dn left right p) :=
  (show [1, 0, 2, 3, 6, 7, 4, 5].Perm (List.range 8) by decide).map fun k => (viewsWith up dn left right p).getD k 0#256

/-- With the two column rotations swapped, likewise (R79). -/
theorem viewsWith_swapCols_perm (up dn left right : Universe → Universe) (p : Universe) :
    (viewsWith up dn right left p).Perm (viewsWith up dn left right p) :=
  (show [0, 1, 3, 2, 5, 4, 7, 6].Perm (List.range 8) by decide).map fun k => (viewsWith up dn left right p).getD k 0#256

theorem countWith_swapRows (up dn left right : Universe → Universe) (p : Universe) :
    countWith dn up left right p = countWith up dn left right p :=
  gather_eq_of_perm (viewsWith_swapRows_perm up dn left right p)

theorem countWith_swapCols (up dn left right : Universe → Universe) (p : Universe) :
    countWith up dn right left p = countWith up dn left right p :=
  gather_eq_of_perm (viewsWith_swapCols_perm up dn left right p)

/-- The step is determined by the count (R78). -/
theorem stepFnWith_eq_of_countWith_eq {up dn left right : Universe → Universe} {p : Universe}
    (h : countWith up dn left right p = count p) : stepFnWith up dn left right p = stepFn p := by
  rw [stepFnWith, h]
  rfl

end Sys2Proof.Proofs
end

section
/-!
PROOFS. The packed step and the reference LIFE (spec/41_step.md R71, R72, R80), and the symmetries of the step (R79, R86).
-/

namespace Sys2Proof.Proofs

open Sys2Proof.Machine Sys2Proof.Laws

/-- A valid sequence packs to a well-formed value (R44, R45). -/
theorem wf_packCells {cells : List Nat} (h : validCells cells = true) : wf (packCells cells) = true := by
  rw [wf_iff]
  intro k
  rw [nib_packCells]
  obtain hk | hk := getD_of_valid h k <;> rw [hk]
  · exact .inl rfl
  · exact .inr rfl

/-- Settles O54: the one sequence that packs to a well-formed value is its `decode`. -/
theorem encodeIsABijection : Obligations.EncodeIsABijection := by
  obtain ⟨decode_packed, pack_decoded⟩ := codecRoundTrip
  refine ⟨fun cells v h => ?_, fun v hv => ⟨decodeCells v, ⟨validCells_decodeCells hv, pack_decoded v hv⟩, ?_⟩⟩
  · obtain ⟨hvalid, rfl⟩ := encodeCells_eq_ok_iff.1 h
    exact wf_packCells hvalid
  · rintro cells ⟨-, h⟩
    exact (decode_packed cells v h).symm

/-- Settles O45: packing is undone by `decode`, and on well-formed values COUNT is the live-neighbour count. -/
theorem countIsLiveNeighbours : Obligations.CountIsLiveNeighbours := by
  intro cells h r c
  obtain ⟨hcount, hle⟩ := cell_count_of_wf (wf_packCells h) r c
  rw [decodeCells_packCells h] at hcount
  exact ⟨hcount, hcount ▸ hle⟩

/-- A merged field as a number: the count with the cell or-ed in (R75). -/
theorem cell_merged (p : Universe) (r c : Fin 8) : cell (merged p) r c = cell (count p) r c ||| cell p r c := by
  simp only [cell, merged, field_or256, BitVec.toNat_or]

/-- A packed cell of a valid sequence is the cell (R44). -/
theorem cell_packCells {cells : List Nat} (h : validCells cells = true) (r c : Fin 8) :
    cell (packCells cells) r c = cellAt cells r c := by
  rw [← cellAt_decodeCells, decodeCells_packCells h]

/-- A field of the next generation, as a number: one comparison of the merged field with 3 (R77, R78). -/
theorem field_stepFn (p : Universe) (r c : Fin 8) :
    field (stepFn p) r c = BitVec.ofNat 4 (if cell (merged p) r c = 3 then 1 else 0) := by
  have h3 : field (merged p) r c = 3#4 ↔ cell (merged p) r c = 3 := BitVec.toNat_inj.symm
  simp only [stepFn, field_eq3, h3]
  split <;> rfl

/-- The comparison is the rule B3/S23 on the counts and states there are (R77). -/
theorem compare_eq_lifeRule {a n : Nat} (ha : a = 0 ∨ a = 1) (hn : n ≤ 8) :
    (if n ||| a = 3 then 1 else 0) = lifeRule a n :=
  (oneCompareIsTheRule ⟨n, by omega⟩ ⟨a, by omega⟩).1

/-- On a packed valid sequence the step computes LIFE (R80). -/
theorem stepFn_packCells {cells : List Nat} (h : validCells cells = true) :
    stepFn (packCells cells) = packCells (life cells) := by
  refine ext_field fun r c => ?_
  obtain ⟨hcount, hle⟩ := countIsLiveNeighbours cells h r c
  rw [field_stepFn, field_packCells, cellAt_life, cell_merged, hcount, cell_packCells h,
    compare_eq_lifeRule (cellAt_of_valid h r c) hle]

/-- Settles O48: what `encode` accepts it packs, and LIFE gives a valid sequence again. -/
theorem stepFnComputesLife : Obligations.StepFnComputesLife := by
  refine ⟨fun cells v h => ?_, fun p => wf_eq3 (merged p)⟩
  obtain ⟨hvalid, rfl⟩ := encodeCells_eq_ok_iff.1 h
  rw [stepFn_packCells hvalid]
  exact ⟨encodeCells_of_valid (validCells_life cells), decodeCells_packCells (validCells_life cells)⟩

/-- A move of rows and columns that maps the neighbours of every cell to the neighbours of its source, neighbour `d` to neighbour
`δ d`. -/
def KeepsNeighbours (ρ γ : Fin 8 → Fin 8) (δ : Fin 8 × Fin 8 → Fin 8 × Fin 8) : Prop :=
  (viewOffsets.map δ).Perm viewOffsets ∧
    ∀ (r c : Fin 8) (d : Fin 8 × Fin 8), ρ (r + d.1) = ρ r + (δ d).1 ∧ γ (c + d.2) = γ c + (δ d).2

/-- Such a move goes through COUNT: the same eight fields are summed in another order. -/
theorem field_count_of_keepsNeighbours {T : Universe → Universe} {ρ γ : Fin 8 → Fin 8} {δ : Fin 8 × Fin 8 → Fin 8 × Fin 8}
    (hT : MovesFields T ρ γ) (hδ : KeepsNeighbours ρ γ δ) (v : Universe) (r c : Fin 8) :
    field (count (T v)) r c = field (count v) (ρ r) (γ c) := by
  obtain ⟨hperm, hadd⟩ := hδ
  calc field (count (T v)) r c
      = (viewOffsets.map fun d => field v (ρ r + (δ d).1) (γ c + (δ d).2)).sum := by
        simp only [field_count, hT v, (hadd r c _).1, (hadd r c _).2]
    _ = ((viewOffsets.map δ).map fun d => field v (ρ r + d.1) (γ c + d.2)).sum := by rw [List.map_map]; rfl
    _ = field (count v) (ρ r) (γ c) := by rw [(hperm.map _).sum_eq, field_count]

/-- So the step commutes with it, on every value. -/
theorem stepFn_commutes {T : Universe → Universe} {ρ γ : Fin 8 → Fin 8} {δ : Fin 8 × Fin 8 → Fin 8 × Fin 8}
    (hT : MovesFields T ρ γ) (hδ : KeepsNeighbours ρ γ δ) (v : Universe) : stepFn (T v) = T (stepFn v) := by
  refine ext_field fun r c => ?_
  rw [hT, stepFn, stepFn, field_eq3, field_eq3, merged, merged, field_or256, field_or256,
    field_count_of_keepsNeighbours hT hδ, hT]

/-- A translation maps each neighbour to the neighbour on the same side. -/
theorem keepsNeighbours_add (a b : Fin 8) : KeepsNeighbours (· + a) (· + b) id := by
  refine ⟨by rw [List.map_id], fun r c d => ?_⟩
  exact ⟨add_right_comm .., add_right_comm ..⟩

/-- Seen from the other end a neighbour lies on the other side. -/
theorem sub_add_neighbour (r d : Fin 8) : 7 - (r + d) = 7 - r + -d := by
  rw [sub_add_eq_sub_sub, sub_eq_add_neg]

/-- Counting the rows from the other end exchanges north and south. -/
theorem keepsNeighbours_reverseRows : KeepsNeighbours (7 - ·) id fun d => (-d.1, d.2) :=
  ⟨by decide, fun r _ d => ⟨sub_add_neighbour r d.1, rfl⟩⟩

/-- Counting the columns from the other end exchanges east and west. -/
theorem keepsNeighbours_reverseCols : KeepsNeighbours id (7 - ·) fun d => (d.1, -d.2) :=
  ⟨by decide, fun _ c d => ⟨rfl, sub_add_neighbour c d.2⟩⟩

theorem stepFn_reverseRows (v : Universe) : stepFn (reverseRows v) = reverseRows (stepFn v) :=
  stepFn_commutes field_reverseRows keepsNeighbours_reverseRows v

theorem stepFn_reverseCols (v : Universe) : stepFn (reverseCols v) = reverseCols (stepFn v) :=
  stepFn_commutes field_reverseCols keepsNeighbours_reverseCols v

/-- Settles O50: a rotation is a translation of the torus. -/
theorem translationSymmetry : Obligations.TranslationSymmetry := by
  intro rot hrot v _
  obtain ⟨a, b, h⟩ := exists_translates hrot
  exact stepFn_commutes h.movesFields (keepsNeighbours_add a b) v

/-- Settles O49: the reversals commute with the step, which on packed sequences is LIFE; swapped rotations give the same views. -/
theorem directionNamesImmaterial : Obligations.DirectionNamesImmaterial := by
  refine ⟨fun cells h => ?_, fun p => ?_⟩
  · simp only [stepFn_reverseRows, stepFn_reverseCols, stepFn_packCells h, and_self]
  · have hrows : countWith rotRowDn rotRowUp rotColL rotColR p = count p := countWith_swapRows ..
    have hcols : countWith rotRowUp rotRowDn rotColR rotColL p = count p := countWith_swapCols ..
    have hboth : countWith rotRowDn rotRowUp rotColR rotColL p = count p := (countWith_swapRows ..).trans hcols
    exact ⟨hrows, hcols, hboth, rfl, stepFnWith_eq_of_countWith_eq hrows, stepFnWith_eq_of_countWith_eq hcols,
      stepFnWith_eq_of_countWith_eq hboth⟩

/-- Settles O51: run on an unknown operand the schedule computes the views, their sum from the left, the or and the compare. -/
theorem stepFnIsSeventeenPrimitives : Obligations.StepFnIsSeventeenPrimitives :=
  ⟨fun p => by simp [scheduleResult, stepSchedule, runSchedule, microResult, stepFn, merged, count, gather, views, viewsWith],
    rfl, rfl, rfl, rfl, rfl, rfl⟩

end Sys2Proof.Proofs
end

section
/-!
PROOFS. Generations (spec/42_host_commands.md R95, spec/30_encoding.md R56): a run of STEPs iterates the step, and through the codec
the host sees LIFE iterated.
-/

namespace Sys2Proof.Proofs

open Sys2Proof.Machine Sys2Proof.Laws

/-- `n` STEPs on a well-formed universe advance it `n` generations; each is well-formed again, so none of them faults. -/
theorem runMoves_steps {v : Universe} (hv : wf v = true) (n : Nat) :
    runMoves (List.replicate n (commandMove .step)) { u := some v, cause := .noFault } =
      ({ u := some (iterate stepFn n v), cause := .noFault }, List.replicate n { status := 0b001#3, data := none }) := by
  obtain ⟨-, wf_stepFn⟩ := stepFnComputesLife
  induction n generalizing v with
  | zero => rfl
  | succ n ih =>
    simp only [List.replicate_succ, runMoves_commandMove_cons, transact_step_of_wf hv, ih (wf_stepFn v), iterate]

/-- LOADU, `n` STEPs and a READU on an unfaulted block (R95). -/
theorem runMoves_generations {b : Block} (hc : b.cause = .noFault) {v : Universe} (hv : wf v = true) (n : Nat) :
    runMoves ([commandMove (.loadu v)] ++ List.replicate n (commandMove .step) ++ [commandMove .readu]) b =
      ({ u := some (iterate stepFn n v), cause := .noFault },
        List.replicate (n + 1) { status := 0b001#3, data := none } ++
          [{ status := 0b001#3, data := some (iterate stepFn n v) }]) := by
  simp only [runMoves_append, runMoves_commandMove, transact_loadu_of_noFault hc, runMoves_steps hv,
    transact_readu_of_loaded]
  rfl

/-- The iterated step is LIFE iterated, through `encode`. -/
theorem encodeCells_lifeIterate {cells : List Nat} {v : Universe} (h : encodeCells cells = .ok v) (n : Nat) :
    encodeCells (lifeIterate n cells) = .ok (iterate stepFn n v) := by
  obtain ⟨step_life, -⟩ := stepFnComputesLife
  induction n generalizing cells v with
  | zero => exact h
  | succ n ih => exact ih (step_life cells v h).1

/-- Settles O34: the run, and the main theorem iterated on the cells of the loaded value. -/
theorem generationLaw : Obligations.GenerationLaw := by
  obtain ⟨-, pack_decoded⟩ := codecRoundTrip
  exact fun b v n hc hv => ⟨runMoves_generations hc hv n, encodeCells_lifeIterate (pack_decoded v hv) n⟩

/-- The moves of LOADCELLS, STEPN and READCELLS (R56). -/
theorem expandLines_generations {cells : List Nat} (h : validCells cells = true) (n : Nat) :
    expandLines [.pseudo (.loadCells cells), .pseudo (.stepN n), .pseudo .readCells] =
      .ok ([commandMove (.loadu (packCells cells))] ++ List.replicate n (commandMove .step) ++ [commandMove .readu]) := by
  simp [expandLines, expandLine, expandPseudo, encodeCells_of_valid h, Except.map]

/-- Settles O35: the host decodes the last response of R95's run on the packed cells. -/
theorem hostSeesLife : Obligations.HostSeesLife := by
  refine ⟨fun b cells n hc h => ⟨_, expandLines_generations h n, ?_⟩, fun _ => expandPseudo_loadCells_of_invalid⟩
  obtain ⟨decode_packed, -⟩ := codecRoundTrip
  have hlife := decode_packed _ _ (encodeCells_lifeIterate (encodeCells_of_valid h) n)
  rw [runMoves_generations hc (wf_packCells h), List.getLast?_concat, Option.bind_some, observedCells, Option.map_some, hlife]

end Sys2Proof.Proofs
end

section
/-!
PROOFS. The byte view of `U` (spec/20_memory.md R29, R31) and several blocks side by side (spec/60_exceptions.md R110).
-/

namespace Sys2Proof.Proofs

open Sys2Proof.Machine Sys2Proof.Laws

/-- The cells of the byte view are the bytes that exist, each at its address. -/
theorem mem_byteView_iff (b : Block) (a : Nat) (x : Byte) : (a, x) ∈ byteView b ↔ byteAt b a = some x := by
  cases hu : b.u with
  | none => simp [byteView, byteAt, hu]
  | some v =>
    simp only [byteView, byteAt, hu, List.mem_map, List.mem_finRange, true_and, Prod.mk.injEq, Option.map_some]
    constructor
    · rintro ⟨k, rfl, rfl⟩
      simp
    · intro h
      split at h
      · next ha => exact ⟨⟨a, ha⟩, rfl, Option.some.inj h⟩
      · cases h

/-- The bytes of a well-formed value hold two cells each, so they are the four of R29. -/
theorem byte_mem_of_wf {v : Universe} (h : wf v = true) (a : Fin 32) :
    byte v a ∈ ([0x00#8, 0x01#8, 0x10#8, 0x11#8] : List Byte) := by
  have hbyte := byte_eq_fields v ⟨a.val / 4, by omega⟩ ⟨a.val % 4, by omega⟩
  simp only [Nat.div_add_mod] at hbyte
  rw [hbyte]
  obtain hodd | hodd := (wf_iff_field v).1 h _ _ <;> obtain heven | heven := (wf_iff_field v).1 h _ _ <;>
    rw [hodd, heven] <;> decide

/-- The 32 bytes of a value, laid out little-endian, are the value (R31). -/
theorem ofBytes_bytes (v : Universe) : ofBytes ((List.finRange 32).map (byte v)) = v := by
  refine ext_fieldAt (w := 8) (n := 32) rfl (by decide) fun k => ?_
  rw [ofBytes, fieldAt_pack _ (by decide)]
  simp [byte]

/-- Settles O31: the canonical form, the cells one by one, the two columns of a byte, the four bytes, and the way back. -/
theorem byteViewOfTheUniverse : Obligations.ByteViewOfTheUniverse :=
  ⟨byteView_wf, mem_byteView_iff, byte_eq_fields, fun _ a h => byte_mem_of_wf h a, ofBytes_bytes⟩

/-- The machine a step leaves; every step leaves one. -/
def nextState (s : State) : State :=
  match step s with
  | .next t => t
  | .fault _ => s
  | .refused _ => s

theorem step_eq_nextState (s : State) : step s = .next (nextState s) := by
  obtain ⟨-, h⟩ | ⟨_, -, h⟩ | ⟨_, _, -, h⟩ := step_cases s <;> rw [nextState, h]

/-- A step at a place changes that place alone, as its own machine's step says. -/
theorem stepAt_eq_modify (i : Nat) (sys : List State) : stepAt i sys = sys.modify i nextState := by
  rw [stepAt, List.modify_eq_set_getElem?]
  cases sys[i]? with
  | none => rfl
  | some s => simp only [step_eq_nextState, Option.map_eq_map, Option.map_some, Option.getD_some]

theorem getElem?_stepAt (i j : Nat) (sys : List State) :
    (stepAt i sys)[j]? = if i = j then sys[j]?.map nextState else sys[j]? := by
  rw [stepAt_eq_modify, List.getElem?_modify]
  split <;> simp

/-- Under a schedule a machine takes as many of its own steps as its place is scheduled, and nothing else happens to it. -/
theorem getElem?_runSystem (j : Nat) (sched : List Nat) (sys : List State) :
    (runSystem sched sys)[j]? = sys[j]?.map (nextState^[sched.count j]) := by
  induction sched generalizing sys with
  | nil => simp [runSystem]
  | cons i is ih =>
    rw [runSystem, ih, getElem?_stepAt, List.count_cons]
    by_cases hij : i = j
    · simp [hij, Function.iterate_succ]
    · simp [hij]

/-- Settles O55: a step modifies its own place, and a schedule is counted place by place. -/
theorem blocksAreIndependent : Obligations.BlocksAreIndependent := by
  refine ⟨fun i j sys hij => ?_, fun i j sys => ?_, fun j sched sched' sys sys' hsys hcount => ?_⟩
  · rw [getElem?_stepAt, if_neg hij]
  · apply List.ext_getElem?
    intro k
    simp only [getElem?_stepAt]
    split <;> split <;> rfl
  · rw [getElem?_runSystem, getElem?_runSystem, hsys, hcount]

end Sys2Proof.Proofs
end
